-- ==== Sys2Proof/Word.lean ====
section
/-! DEFINITION. The word types of the B32R block (00_scope.md R7, R8). -/

namespace Sys2Proof

/-- A byte of IN or OUT (R7). -/
abbrev Byte := BitVec 8

/-- The 16-bit length and detail fields IN_LEN, OUT_LEN, ERRINFO (R21 to R23). -/
abbrev Half := BitVec 16

/-- A bus word and a 32-bit register (R16, R37). -/
abbrev Word := BitVec 32

/-- The 64-bit registers T and CTR (R26, R27). -/
abbrev DWord := BitVec 64

/-- A 5-bit Base32 symbol value (R7). -/
abbrev Sym := BitVec 5

/-- A byte offset in the block's 4 KiB window, 0 <= off < 4096 (R37). -/
abbrev Offset := BitVec 12

end Sys2Proof
end

