-- ==== Sys2Proof/Syntax.lean ====
section
/-! DEFINITION. The commands of the B32R block: one constructor per row of spec/opcode_table.json (30_encoding.md R53). -/

namespace Sys2Proof

/-- The ALG field (30_encoding.md R55): the three algorithms, and the code that stands for none of them. -/
inductive HashAlg where
  | sha1
  | sha256
  | sha512
  /-- ALG = 3: the command fails with UnsupportedAlgorithm. -/
  | unsupported
  deriving DecidableEq, Repr

/-- The eight commands, each with the fields it uses (R52, R53). `d` is the digit count of the DIG field, a
zero-extended unsigned number (R54); `strict` is the S field (R56). -/
inductive Instr where
  | b32enc
  | b32dec (strict : Bool)
  | tctr
  | ctrser
  | dtrunc (alg : HashAlg)
  | modr (d : Nat)
  | decfmt (d : Nat)
  | otpfin (alg : HashAlg) (d : Nat)
  deriving DecidableEq, Repr

end Sys2Proof
end

