-- ==== Sys2Proof/WellFormed.lean ====
section
/-! DEFINITION. Which commands an encoding can hold: the digit count fits the 4-bit DIG field (30_encoding.md R51, R54). -/

namespace Sys2Proof

/-- The digit count fits DIG, whose values are 0 to 15. Counts outside 1 to 10 are well formed: they decode to their
command, which then fails (R54, R60). -/
abbrev digFits (d : Nat) : Bool := decide (d < 16)

/-- A command some CMD32 word encodes. -/
def Instr.wellFormed : Instr → Bool
  | .b32enc => true
  | .b32dec _ => true
  | .tctr => true
  | .ctrser => true
  | .dtrunc _ => true
  | .modr d => digFits d
  | .decfmt d => digFits d
  | .otpfin _ d => digFits d

end Sys2Proof
end

