-- ==== Sys2Proof/Decode.lean ====
section
/-! DEFINITION. The command decoder and, after it, the encoder and the assembler (30_encoding.md R51 to R61). -/

namespace Sys2Proof

/-- DIG, bits 11:8 (R51, R54). -/
def digField (w : Word) : Nat := (w.extractLsb' 8 4).toNat

/-- ALG, bits 13:12 (R51, R55). -/
def algField (w : Word) : HashAlg :=
  match (w.extractLsb' 12 2).toNat with
  | 0 => .sha1
  | 1 => .sha256
  | 2 => .sha512
  | _ => .unsupported

/-- S, bit 14 (R51, R56). -/
def strictField (w : Word) : Bool := w.getLsbD 14

/-- A row of the table of R57: the word matches when `w & mask == pattern`, and `build` reads the fields it uses. -/
structure CommandRow where
  mnemonic : String
  pattern : Word
  mask : Word
  build : Word → Instr

/-- The eight rows of R57, in the order of the table. -/
def commandTable : List CommandRow :=
  [ ⟨"B32ENC", 0x00000001#32, 0xFFFFFFFF#32, fun _ => .b32enc⟩,
    ⟨"B32DEC", 0x00000002#32, 0xFFFFBFFF#32, fun w => .b32dec (strictField w)⟩,
    ⟨"TCTR", 0x00000010#32, 0xFFFFFFFF#32, fun _ => .tctr⟩,
    ⟨"CTRSER", 0x00000011#32, 0xFFFFFFFF#32, fun _ => .ctrser⟩,
    ⟨"DTRUNC", 0x00000020#32, 0xFFFFCFFF#32, fun w => .dtrunc (algField w)⟩,
    ⟨"MODR", 0x00000021#32, 0xFFFFF0FF#32, fun w => .modr (digField w)⟩,
    ⟨"DECFMT", 0x00000022#32, 0xFFFFF0FF#32, fun w => .decfmt (digField w)⟩,
    ⟨"OTPFIN", 0x00000023#32, 0xFFFFC0FF#32, fun w => .otpfin (algField w) (digField w)⟩ ]

/-- Why a word is Illegal (R59). -/
inductive DecodeError where
  /-- The OP value is reserved. -/
  | reservedOp (op : Byte)
  /-- The OP value selects a command, but RSV or a field the command does not use is nonzero. -/
  | nonzeroReservedOrUnused (w : Word)
  deriving DecidableEq, Repr

/-- The name of an illegal word's rejection (R59). -/
def illegalReason (w : Word) : DecodeError :=
  if commandTable.any (fun r => r.pattern.extractLsb' 0 8 == w.extractLsb' 0 8) then .nonzeroReservedOrUnused w
  else .reservedOp (w.extractLsb' 0 8)

/-- Decoding (R58): the unique row with `w & mask == pattern`, or Illegal, by name. Total on every word. -/
def decode (w : Word) : Except DecodeError Instr :=
  match commandTable.find? (fun r => w &&& r.mask == r.pattern) with
  | some r => .ok (r.build w)
  | none => .error (illegalReason w)

/-- The DIG field's bits for the digit count `d`. -/
def digBits (d : Nat) : Word := BitVec.ofNat 32 d <<< 8

/-- The ALG field's bits (R55). -/
def algBits : HashAlg → Word
  | .sha1 => 0x0000#32
  | .sha256 => 0x1000#32
  | .sha512 => 0x2000#32
  | .unsupported => 0x3000#32

/-- The S field's bit (R56). -/
def strictBits (strict : Bool) : Word := if strict then 0x4000#32 else 0#32

/-- The CMD32 word of a well-formed command (R57). -/
def encode : Instr → Word
  | .b32enc => 0x01#32
  | .b32dec strict => 0x02#32 ||| strictBits strict
  | .tctr => 0x10#32
  | .ctrser => 0x11#32
  | .dtrunc alg => 0x20#32 ||| algBits alg
  | .modr d => 0x21#32 ||| digBits d
  | .decfmt d => 0x22#32 ||| digBits d
  | .otpfin alg d => 0x23#32 ||| algBits alg ||| digBits d

/-- What the decoder reads from an instruction whose bits are `w`, numbered as spec/opcode_table.json numbers them; the
bits above `nbits` are 0. A command is one 32-bit bus word (R51), so a number that does not fit 32 bits is none. -/
def decodeTableWord (nbits w : Nat) : Option Instr :=
  let v := w % 2 ^ nbits
  if v < 2 ^ 32 then (decode (BitVec.ofNat 32 v)).toOption else none

/-- The `alg` operand of an assembler line (R61). -/
def parseAlg (tok : String) : Option HashAlg :=
  if tok == "SHA1" then some .sha1
  else if tok == "SHA256" then some .sha256
  else if tok == "SHA512" then some .sha512
  else none

/-- The `d` operand of an assembler line: a decimal 1 to 10 (R61). -/
def parseDigits (tok : String) : Option Nat :=
  ["1", "2", "3", "4", "5", "6", "7", "8", "9", "10"].findIdx? (· == tok) |>.map (· + 1)

/-- The assembler syntax of R61, on a line split into its tokens (the comma between operands left out). Where `alg` is
omitted it is SHA1. -/
def assemble (line : List String) : Option Instr :=
  match line with
  | [op] =>
    if op == "B32ENC" then some .b32enc
    else if op == "B32DEC" then some (.b32dec false)
    else if op == "B32DEC.S" then some (.b32dec true)
    else if op == "TCTR" then some .tctr
    else if op == "CTRSER" then some .ctrser
    else if op == "DTRUNC" then some (.dtrunc .sha1)
    else none
  | [op, a] =>
    if op == "DTRUNC" then (parseAlg a).map .dtrunc
    else if op == "MODR" then (parseDigits a).map .modr
    else if op == "DECFMT" then (parseDigits a).map .decfmt
    else if op == "OTPFIN" then (parseDigits a).map (.otpfin .sha1)
    else none
  | [op, a, d] =>
    if op == "OTPFIN" then (parseAlg a).bind fun alg => (parseDigits d).map (.otpfin alg) else none
  | _ => none

end Sys2Proof
end

