-- ==== Sys2Proof/Config.lean ====
section
/-! DEFINITION. The implementation parameters (00_scope.md R6) and the free values the spec leaves open: opaque constants
with no body, about whose values nothing can be proved. -/

namespace Sys2Proof

/-- The parameters a model takes as arguments (R6). A state holds them; no step writes them. -/
structure Config where
  /-- IN_CAP, the capacity of the IN buffer in bytes. -/
  inCap : Nat
  /-- OUT_CAP, the capacity of the OUT buffer in bytes. -/
  outCap : Nat
  /-- BASE, the host byte address of the window. -/
  base : Nat
  deriving DecidableEq, Repr

/-- The constraints R6 puts on the parameters. -/
abbrev Config.Legal (c : Config) : Prop :=
  64 ≤ c.inCap ∧ c.inCap ≤ 1024 ∧ c.inCap % 4 = 0 ∧
  10 ≤ c.outCap ∧ c.outCap ≤ 2048 ∧ c.outCap % 4 = 0 ∧ c.base % 4096 = 0

/-- The reference values of IN_CAP and OUT_CAP (R6). BASE has none: 0 is a DESIGN CHOICE, unsafe (log 1). -/
def Config.reference : Config := { inCap := 320, outCap := 512, base := 0 }

/-- Free value (log 5): byte `i` of the IN buffer as the reset numbered `r` left it, unspecified (R30, R100). -/
opaque Config.freeInByte : (r : Nat) → (i : Nat) → Byte

/-- Free value (log 6): OUT byte `i`, which no command has written since reset, as the read numbered `n` draws it
(70_reset_and_hazards.md R102). -/
opaque Config.freeOutByte : (n : Nat) → (i : Nat) → Byte

/-- Free value (log 7): what the read numbered `n` returns while a command is in progress (R105). -/
opaque Config.freeBusyWord : (n : Nat) → Word

/-- Free value (log 8): how many host accesses at most fall between the CMD write numbered `n` and its Complete step
(R111, R112): finite, and not otherwise fixed. -/
opaque Config.latency : (n : Nat) → Nat

/-- Free value (log 2): BUS_ERROR_RESPONSE, an uninterpreted code for what the host platform shows the host for a
refused access at an offset (20_memory.md R40). -/
opaque Config.busErrorResponse : Offset → Nat

end Sys2Proof
end

