-- ==== Sys2Proof/Machine/State.lean ====
section
/-! DEFINITION. The state of the B32R block (10_state.md R15 to R36), its stop reasons and its state after reset. -/

namespace Sys2Proof.Machine

/-- The engine phase (R32): idle, or a command word in progress. STATUS.BUSY is 1 exactly in `busy`. -/
inductive Phase where
  | idle
  | busy (w : Word)
  deriving DecidableEq, Repr

/-- A byte buffer: the bytes written since reset, as (index, byte) pairs with indices strictly rising. An index that is
not listed has no value: its content is unspecified (R30, R31). -/
abbrev Memory := List Host.Cell

/-- The one canonical form of a buffer of `cap` bytes: indices strictly rising, all below the capacity. An unlisted index
has no value, so no listed byte can equal what an unlisted one reads as. -/
abbrev Memory.wf (cap : Nat) (m : Memory) : Prop :=
  m.Pairwise (fun x y => x.1 < y.1) ∧ ∀ c ∈ m, c.1 < cap

/-- One host event (R45): an access on the host bus (R37, R62), a POLL (R62), or the reset input (R100). `addr` is a
byte address of the host bus and `width` the access width in bytes. -/
inductive HostOp where
  | read (addr width : Nat)
  | write (addr width : Nat) (v : Word)
  /-- Repeat `R 0x008` until bit 0 (BUSY) of the word read is 0. -/
  | poll
  | reset
  deriving DecidableEq, Repr

/-- What the host saw for its last event. -/
inductive Reply where
  /-- No data: nothing was read, or the access was outside the window. -/
  | noData
  /-- The word a read returned. -/
  | data (v : Word)
  /-- A refused access, with the platform's response (BUS_ERROR_RESPONSE, R40). -/
  | busError (off : Offset) (response : Nat)
  deriving DecidableEq, Repr

/-- The model faults (60_exceptions.md R92). The hardware does not report them: they stand where its behaviour is left
unspecified. -/
inductive Fault where
  /-- A refused host access (20_memory.md R40). Recorded by the host access that is refused, which changes nothing else;
  raised by the next step. Safe: the block's state is unchanged, and the model stops where the host's reaction is open. -/
  | busError (off : Offset)
  /-- A host write, to any offset, while STATUS.BUSY = 1 (70_reset_and_hazards.md R104). Raised by that host write.
  Safe: the model stops where the hardware's effect is unspecified. -/
  | hostWriteWhileBusy (off : Offset)
  /-- B32ENC, B32DEC, DTRUNC or OTPFIN consumes IN[i] with Wr[i] = 0; i is the lowest such index (R101). Raised by those
  commands. Safe: the model stops where the hardware would compute on an unspecified byte. -/
  | unwrittenInput (i : Nat)
  deriving DecidableEq, Repr

/-- Why a step can have no meaning. -/
inductive Refusal where
  /-- Raised by exec's arm of a command that has no meaning yet. Safe: the model stops. No arm answers it now. -/
  | notModelled (mnemonic : String)
  deriving DecidableEq, Repr

/-- The state of the block, its parameters, and the model's own fields. -/
structure State where
  /-- IN_CAP, OUT_CAP and BASE (R6). -/
  cfg : Config
  /-- The engine phase (R32), which is STATUS.BUSY (R19). -/
  phase : Phase
  /-- CMD (R18): the last command word written while idle. -/
  cmd : Word
  /-- STATUS.DONE (R19). -/
  done : Bool
  /-- STATUS.ERR (R19). -/
  err : Bool
  /-- ERRCODE[3:0] (R20). -/
  errCode : BitVec 4
  /-- ERRINFO[15:0] (R21). -/
  errInfo : Half
  /-- IN_LEN[15:0] (R22). -/
  inLen : Half
  /-- OUT_LEN[15:0] (R23). -/
  outLen : Half
  /-- PERIOD (R25). -/
  period : Word
  /-- T = T_HI ++ T_LO (R26). -/
  t : DWord
  /-- CTR = CTR_HI ++ CTR_LO (R27). -/
  ctr : DWord
  /-- VAL (R28). -/
  val : Word
  /-- CODE (R29). -/
  code : Word
  /-- The IN buffer (R30). It lists i exactly when Wr[i] = 1 (R33). -/
  inBuf : Memory
  /-- The OUT buffer (R31): the bytes a command has written since reset. -/
  outBuf : Memory
  /-- The model's fault set (R92). -/
  faults : List Fault
  /-- The model's own: the number of the next free value. -/
  draws : Nat
  /-- The model's own: which draw the unspecified IN contents of the last reset are. -/
  inDraw : Nat
  /-- The model's own: how many host accesses may still fall before Complete (R111). -/
  delay : Nat
  /-- The model's own: the host events not yet performed, in issue order (R45). -/
  script : List HostOp
  /-- The model's own: what the host saw for its last event. -/
  reply : Reply
  deriving DecidableEq, Repr

/-- The block after reset with the parameters `c` (R16, R100). The model's own fields: log 17. -/
def State.resetWith (c : Config) : State where
  cfg := c
  phase := .idle
  cmd := 0#32
  done := false
  err := false
  errCode := 0#4
  errInfo := 0#16
  inLen := 0#16
  outLen := 0#16
  period := 30#32
  t := 0#64
  ctr := 0#64
  val := 0#32
  code := 0#32
  inBuf := []
  outBuf := []
  faults := []
  draws := 1
  inDraw := 0
  delay := 0
  script := []
  reply := .noData

/-- The block right after reset, with the reference parameters (R6, R16, R100). -/
def State.reset : State := State.resetWith Config.reference

end Sys2Proof.Machine
end

