-- ==== Sys2Proof/Machine/Ops.lean ====
section
/-! DEFINITION. The named operations over the buffers and the registers, and the shared operations of the engine: ending a
command with an error report (R86), ending it with success (R32), and starting one (R18). -/

namespace Sys2Proof.Machine

abbrev Result := Host.Outcome State Fault Refusal

/-! ### Buffers -/

/-- The byte at index `a`, none where nothing has been written since reset. -/
def Memory.read : Memory → Nat → Option Byte
  | [], _ => none
  | (k, b) :: m, a => if a = k then some b else Memory.read m a

/-- Write the byte at index `a`, keeping the canonical form. -/
def Memory.write : Memory → Nat → Byte → Memory
  | [], a, b => [(a, b)]
  | (k, c) :: m, a, b =>
    if a < k then (a, b) :: (k, c) :: m
    else if a = k then (a, b) :: m
    else (k, c) :: Memory.write m a b

/-- Write consecutive bytes from index `a` up. -/
def Memory.writeBytes : Memory → Nat → List Byte → Memory
  | m, _, [] => m
  | m, a, b :: bs => Memory.writeBytes (Memory.write m a b) (a + 1) bs

/-- The `n` bytes from index `a` up, or the lowest index among them that has never been written. -/
def Memory.readBytes (m : Memory) : (a n : Nat) → Except Nat (List Byte)
  | _, 0 => .ok []
  | a, n + 1 =>
    match Memory.read m a with
    | none => .error a
    | some b =>
      match Memory.readBytes m (a + 1) n with
      | .error i => .error i
      | .ok bs => .ok (b :: bs)

/-- Wr[i] (R33): the host has written IN byte `i` since the last reset. -/
def State.wr (s : State) (i : Nat) : Bool := (s.inBuf.read i).isSome

/-! ### Ending a command -/

/-- The errors of 60_exceptions.md R85 that the block reports. Code 6 (EncodingMismatch) is the host's (R89). -/
inductive ErrorKind where
  | invalidCharacter
  | invalidPadding
  | invalidPeriod
  | invalidDigitCount
  | unsupportedAlgorithm
  | illegalCommand
  | badLength
  | outOverflow
  deriving DecidableEq, Repr

/-- The code held in ERRCODE[3:0] (R85). -/
def errorCode : ErrorKind → BitVec 4
  | .invalidCharacter => 1#4
  | .invalidPadding => 2#4
  | .invalidPeriod => 3#4
  | .invalidDigitCount => 4#4
  | .unsupportedAlgorithm => 5#4
  | .illegalCommand => 7#4
  | .badLength => 8#4
  | .outOverflow => 9#4

/-- `raise E(info)`, the block's trap entry (R86): the error report and nothing else. The phase returns to Idle, so BUSY
is 0 (R32). There is no handler and no return (R90): the report stays until `startCommand` clears DONE and ERR. -/
def raiseError (e : ErrorKind) (info : Nat) (s : State) : State :=
  { s with phase := .idle, done := true, err := true, errCode := errorCode e, errInfo := BitVec.ofNat 16 info }

/-- The completion of a successful command (R32): DONE set, ERR, ERRCODE and ERRINFO cleared. -/
def succeed (s : State) : State :=
  { s with phase := .idle, done := true, err := false, errCode := 0#4, errInfo := 0#16 }

/-! ### Results of commands (R35) -/

/-- OUT[0..n) and OUT_LEN <- n. OUT bytes at index >= n are unchanged (R31). -/
def writeOut (bs : List Byte) (s : State) : State :=
  { s with outBuf := s.outBuf.writeBytes 0 bs, outLen := BitVec.ofNat 16 bs.length }

/-- CTR <- v (R27). -/
def writeCtr (v : DWord) (s : State) : State := { s with ctr := v }

/-- VAL <- v (R28). -/
def writeVal (v : Word) (s : State) : State := { s with val := v }

/-- CODE <- v (R29). -/
def writeCode (v : Word) (s : State) : State := { s with code := v }

/-! ### Starting a command -/

/-- A host write of `v` to CMD while idle (R18, R90): CMD <- v, STATUS <- 0b001, phase <- Busy(v). The delay to Complete
is a free value (R112). -/
def startCommand (v : Word) (s : State) : State :=
  { s with cmd := v, phase := .busy v, done := false, err := false, delay := Config.latency s.draws, draws := s.draws + 1 }

/-! ### Host writes of registers and of IN -/

/-- IN_LEN <- v[15:0] (R22). -/
def writeInLen (v : Word) (s : State) : State := { s with inLen := v.extractLsb' 0 16 }

/-- PERIOD <- v (R25). -/
def writePeriod (v : Word) (s : State) : State := { s with period := v }

/-- T[31:0] <- v, the other half unchanged (R26). -/
def writeTLo (v : Word) (s : State) : State := { s with t := s.t.extractLsb' 32 32 ++ v }

/-- T[63:32] <- v, the other half unchanged (R26). -/
def writeTHi (v : Word) (s : State) : State := { s with t := v ++ s.t.extractLsb' 0 32 }

/-- CTR[31:0] <- v, the other half unchanged (R27). -/
def writeCtrLo (v : Word) (s : State) : State := { s with ctr := s.ctr.extractLsb' 32 32 ++ v }

/-- CTR[63:32] <- v, the other half unchanged (R27). -/
def writeCtrHi (v : Word) (s : State) : State := { s with ctr := v ++ s.ctr.extractLsb' 0 32 }

/-- The bytes of a window word, byte 4k first (R38): bits 7:0 first. -/
def wordBytes (v : Word) : List Byte :=
  [v.extractLsb' 0 8, v.extractLsb' 8 8, v.extractLsb' 16 8, v.extractLsb' 24 8]

/-- IN[4k+j] <- v[8j+7:8j] and Wr[4k+j] <- 1 for j = 0..3 (R38). -/
def writeInWord (k : Nat) (v : Word) (s : State) : State :=
  { s with inBuf := s.inBuf.writeBytes (4 * k) (wordBytes v) }

/-! ### Reset, faults and the model's own fields -/

/-- The event RESET (R100): every register takes its reset value, phase <- Idle, Wr clears, the buffers become
unspecified, a command in progress is abandoned. The fault set, the parameters and the host's further events stay. -/
def hostReset (s : State) : State :=
  { State.resetWith s.cfg with
    faults := s.faults, script := s.script, inDraw := s.draws, draws := s.draws + 1 }

/-- Record a model fault in the fault set (R92). Nothing else changes. -/
def recordFault (f : Fault) (s : State) : State :=
  { s with faults := if f ∈ s.faults then s.faults else f :: s.faults }

/-- What the host sees for its last event. -/
def setReply (r : Reply) (s : State) : State := { s with reply := r }

/-- A host read took the next free value, whether it used it or not. -/
def nextDraw (s : State) : State := { s with draws := s.draws + 1 }

/-- The host's events still to come. -/
def setScript (ops : List HostOp) (s : State) : State := { s with script := ops }

/-- One of the accesses that may fall before Complete has been performed. -/
def countDelay (s : State) : State := { s with delay := s.delay - 1 }

end Sys2Proof.Machine
end

