-- ==== Sys2Proof/Machine/Flags.lean ====
section
/-! DEFINITION. The block's only flags: STATUS.BUSY, DONE and ERR (10_state.md R19, R34), and the readable words of STATUS,
ERRCODE and ERRINFO. -/

namespace Sys2Proof.Machine

/-- STATUS.BUSY = 1 exactly when phase = Busy(w) (R32). -/
def State.isBusy (s : State) : Bool :=
  match s.phase with
  | .idle => false
  | .busy _ => true

/-- The STATUS register: BUSY in bit 0, DONE in bit 1, ERR in bit 2, bits 31:3 zero (R19). -/
def statusWord (s : State) : Word :=
  (0#29 ++ BitVec.ofBool s.err ++ BitVec.ofBool s.done ++ BitVec.ofBool s.isBusy : BitVec 32)

/-- ERRCODE: bits 3:0, the others zero (R20). -/
def errCodeWord (s : State) : Word := s.errCode.setWidth 32

/-- ERRINFO: bits 15:0, the others zero (R21). -/
def errInfoWord (s : State) : Word := s.errInfo.setWidth 32

end Sys2Proof.Machine
end

