-- ==== Sys2Proof/Machine/Bus.lean ====
section
/-! DEFINITION. The host's accesses to the 4 KiB window, POLL and RESET (20_memory.md, 70_reset_and_hazards.md R100 to
R105, 30_encoding.md R62). -/

namespace Sys2Proof.Machine

/-! ### The address map (R16, R43) -/

/-- The registers of R16. T and CTR are reached by halves. -/
inductive Reg where
  | id
  | cmd
  | status
  | errCode
  | errInfo
  | inLen
  | outLen
  | period
  | tLo
  | tHi
  | ctrLo
  | ctrHi
  | val
  | code
  deriving DecidableEq, Repr

/-- A location of the window: a register, or the four bytes of a buffer from index 4k up (R38). -/
inductive Loc where
  | reg (r : Reg)
  | inWord (k : Nat)
  | outWord (k : Nat)
  deriving DecidableEq, Repr

/-- The register offsets of R16. -/
def registerMap : List (Nat × Reg) :=
  [ (0x000, .id), (0x004, .cmd), (0x008, .status), (0x00C, .errCode), (0x010, .errInfo), (0x014, .inLen),
    (0x018, .outLen), (0x01C, .period), (0x020, .tLo), (0x024, .tHi), (0x028, .ctrLo), (0x02C, .ctrHi),
    (0x030, .val), (0x034, .code) ]

/-- The location at a window offset; none where it is misaligned or reserved (R16, R40 a and c). -/
def locate (c : Config) (off : Offset) : Option Loc :=
  let o := off.toNat
  if o % 4 ≠ 0 then none
  else if o < 0x400 then (registerMap.lookup o).map .reg
  else if o < 0x800 then (if o - 0x400 < c.inCap then some (.inWord ((o - 0x400) / 4)) else none)
  else if o - 0x800 < c.outCap then some (.outWord ((o - 0x800) / 4))
  else none

/-- The window offset of a host bus address; none outside [BASE, BASE + 4096) (R43). -/
def windowOffset (c : Config) (addr : Nat) : Option Offset :=
  if c.base ≤ addr ∧ addr < c.base + 4096 then some (BitVec.ofNat 12 (addr - c.base)) else none

/-! ### Reading (R38, R42, R102, R105) -/

/-- The ID register's constant, "B32R" (R17). -/
def idWord : Word := 0x42333252#32

/-- What a read of a register returns while idle (R16 to R29). -/
def regWord (s : State) : Reg → Word
  | .id => idWord
  | .cmd => s.cmd
  | .status => statusWord s
  | .errCode => errCodeWord s
  | .errInfo => errInfoWord s
  | .inLen => s.inLen.setWidth 32
  | .outLen => s.outLen.setWidth 32
  | .period => s.period
  | .tLo => s.t.extractLsb' 0 32
  | .tHi => s.t.extractLsb' 32 32
  | .ctrLo => s.ctr.extractLsb' 0 32
  | .ctrHi => s.ctr.extractLsb' 32 32
  | .val => s.val
  | .code => s.code

/-- IN[i] as the host reads it: the last byte written there (R30); where none was, the free content the last reset left
(log 5). -/
def inByte (s : State) (i : Nat) : Byte := (s.inBuf.read i).getD (Config.freeInByte s.inDraw i)

/-- OUT[i] as the host reads it: the last byte a command wrote there (R31); where none was, a free value drawn at each
read (R102). -/
def outByte (s : State) (i : Nat) : Byte := (s.outBuf.read i).getD (Config.freeOutByte s.draws i)

/-- Four bytes as a window word, the first in bits 7:0 (R38). -/
def packWord (b0 b1 b2 b3 : Byte) : Word := b3 ++ b2 ++ b1 ++ b0

/-- What a read of a location returns while idle. -/
def idleRead (s : State) : Loc → Word
  | .reg r => regWord s r
  | .inWord k => packWord (inByte s (4 * k)) (inByte s (4 * k + 1)) (inByte s (4 * k + 2)) (inByte s (4 * k + 3))
  | .outWord k => packWord (outByte s (4 * k)) (outByte s (4 * k + 1)) (outByte s (4 * k + 2)) (outByte s (4 * k + 3))

/-- What a read of a location returns while a command is in progress: STATUS, CMD and ID their words, everything else a
free value (R105). -/
def busyRead (s : State) : Loc → Word
  | .reg .id => regWord s .id
  | .reg .cmd => regWord s .cmd
  | .reg .status => regWord s .status
  | _ => Config.freeBusyWord s.draws

/-- What a permitted read of a location returns. -/
def readLoc (s : State) (l : Loc) : Word := if s.isBusy then busyRead s l else idleRead s l

/-- A refused access (R40): the fault is recorded, and no state of the block changes (log 3). -/
def refuseAccess (off : Offset) (s : State) : State :=
  setReply (.busError off (Config.busErrorResponse off)) (recordFault (.busError off) s)

/-- MemRead at a window offset (R37, R40). -/
def hostRead (off : Offset) (width : Nat) (s : State) : State :=
  if width ≠ 4 then refuseAccess off s
  else
    match locate s.cfg off with
    | none => refuseAccess off s
    | some l => setReply (.data (readLoc s l)) (nextDraw s)

/-! ### Writing (R18, R22, R25 to R29, R38) -/

/-- A host write of a register while idle; none where the register is read-only (R16, R40 d). -/
def writeReg (r : Reg) (v : Word) (s : State) : Option State :=
  match r with
  | .id => none
  | .cmd => some (startCommand v s)
  | .status => none
  | .errCode => none
  | .errInfo => none
  | .inLen => some (writeInLen v s)
  | .outLen => none
  | .period => some (writePeriod v s)
  | .tLo => some (writeTLo v s)
  | .tHi => some (writeTHi v s)
  | .ctrLo => some (writeCtrLo v s)
  | .ctrHi => some (writeCtrHi v s)
  | .val => some (writeVal v s)
  | .code => some (writeCode v s)

/-- A host write of a location while idle; none where it is read-only (R16, R31, R40 d). -/
def writeLoc (l : Loc) (v : Word) (s : State) : Option State :=
  match l with
  | .reg r => writeReg r v s
  | .inWord k => some (writeInWord k v s)
  | .outWord _ => none

/-- MemWrite at a window offset. While a command is in progress a write to any offset is the fault HostWriteWhileBusy
(R104), before the refusals of R40 (log 11). -/
def hostWrite (off : Offset) (width : Nat) (v : Word) (s : State) : Result :=
  if s.isBusy then .fault (.hostWriteWhileBusy off)
  else if width ≠ 4 then .next (refuseAccess off s)
  else
    match (locate s.cfg off).bind fun l => writeLoc l v s with
    | none => .next (refuseAccess off s)
    | some s' => .next (setReply .noData s')

/-! ### Host events -/

/-- POLL (R62): read STATUS, and poll again while BUSY is 1. -/
def hostPoll (s : State) : State :=
  let s' := hostRead 0x008#12 4 s
  if s.isBusy then setScript (.poll :: s'.script) s' else s'

/-- One host event (R37, R45, R62, R100). An access outside the window is not the block's and changes nothing in it
(R15, R43; log 12). -/
def hostStep (op : HostOp) (s : State) : Result :=
  match op with
  | .read addr width =>
    match windowOffset s.cfg addr with
    | none => .next (setReply .noData s)
    | some off => .next (hostRead off width s)
  | .write addr width v =>
    match windowOffset s.cfg addr with
    | none => .next (setReply .noData s)
    | some off => hostWrite off width v s
  | .poll => .next (hostPoll s)
  | .reset => .next (hostReset s)

/-! ### Host-script lines (R62) -/

/-- `W off, v` -/
def scriptW (c : Config) (off : Nat) (v : Word) : HostOp := .write (c.base + off) 4 v

/-- `R off` -/
def scriptR (c : Config) (off : Nat) : HostOp := .read (c.base + off) 4

/-- `C <command>`: `W 0x004, <the word of the command>`. -/
def scriptC (c : Config) (i : Instr) : HostOp := scriptW c 0x004 (encode i)

end Sys2Proof.Machine
end

