-- ==== Sys2Proof/Machine/Operands.lean ====
section
/-! DEFINITION. The operand forms of the commands (30_encoding.md R52 to R56): the input bytes, the digit count and the
digest selected by ALG. Each checks its operand and hands it on, or ends the command. -/

namespace Sys2Proof.Machine

/-- The input IN[0..n) at the UnwrittenInput position of R87: a byte never written since reset is the model fault
UnwrittenInput at the lowest such index (70_reset_and_hazards.md R101). -/
def withInput (n : Nat) (s : State) (k : List Byte → Result) : Result :=
  match s.inBuf.readBytes 0 n with
  | .error i => .fault (.unwrittenInput i)
  | .ok bs => k bs

/-- The check IN_LEN <= IN_CAP of B32ENC and B32DEC (R22, R85), giving L = IN_LEN. -/
def withInLen (s : State) (k : Nat → Result) : Result :=
  if s.cfg.inCap < s.inLen.toNat then .next (raiseError .badLength s.inLen.toNat s) else k s.inLen.toNat

/-- The check that a result of `n` bytes fits OUT (R85). -/
def withRoom (n : Nat) (s : State) (k : Unit → Result) : Result :=
  if s.cfg.outCap < n then .next (raiseError .outOverflow n s) else k ()

/-- The supported digit counts are 1 to 10 (R54). -/
abbrev DigitsSupported (d : Nat) : Prop := 1 ≤ d ∧ d ≤ 10

/-- The digit count d, else InvalidDigitCount(d) (R54, R60). -/
def withDigits (d : Nat) (s : State) (k : Unit → Result) : Result :=
  if DigitsSupported d then k () else .next (raiseError .invalidDigitCount d s)

/-- DLEN(alg) (R14, R55); none for ALG = 3. -/
def digestLength : HashAlg → Option Nat
  | .sha1 => some 20
  | .sha256 => some 32
  | .sha512 => some 64
  | .unsupported => none

/-- The algorithm's digest length Ld, else UnsupportedAlgorithm(3) (R55). -/
def withAlg (alg : HashAlg) (s : State) (k : Nat → Result) : Result :=
  match digestLength alg with
  | none => .next (raiseError .unsupportedAlgorithm 3 s)
  | some n => k n

/-- The digest IN[0..Ld): IN_LEN must be Ld, else BadLength(IN_LEN) (41_hotp_truncate.md R74). -/
def withDigest (n : Nat) (s : State) (k : List Byte → Result) : Result :=
  if s.inLen.toNat ≠ n then .next (raiseError .badLength s.inLen.toNat s) else withInput n s k

end Sys2Proof.Machine
end

