-- ==== Sys2Proof/Machine/Base32.lean ====
section
/-! DEFINITION. The Base32 bit-repacker: B32ENC and B32DEC (40_base32.md). -/

namespace Sys2Proof.Machine

/-- The pad character `=` (R11). -/
def padChar : Byte := 0x3D#8

/-! ### Alphabet (R63, R64) -/

/-- ALPH(v) (R63). -/
def alph (v : Sym) : Byte :=
  if v.toNat ≤ 25 then 0x41#8 + v.setWidth 8 else 0x32#8 + (v.setWidth 8 - 26#8)

/-- FOLD(c): a lower-case letter to upper case, every other byte to itself (R64). -/
def fold (c : Byte) : Byte :=
  if 0x61 ≤ c.toNat ∧ c.toNat ≤ 0x7A then c - 0x20#8 else c

/-- SYMVAL(c), undefined (none) outside A to Z and 2 to 7 (R64). -/
def symVal (c : Byte) : Option Sym :=
  if 0x41 ≤ c.toNat ∧ c.toNat ≤ 0x5A then some ((c - 0x41#8).setWidth 5)
  else if 0x32 ≤ c.toNat ∧ c.toNat ≤ 0x37 then some ((c - 0x32#8 + 26#8).setWidth 5)
  else none

/-! ### Encoding (R65, R66) -/

/-- The 40-bit value X of a block of at most 5 bytes: the bytes, then zero bits (R65). -/
def blockValue (bs : List Byte) : BitVec 40 :=
  bs.getD 0 0#8 ++ bs.getD 1 0#8 ++ bs.getD 2 0#8 ++ bs.getD 3 0#8 ++ bs.getD 4 0#8

/-- Character k of a block: ALPH of the chunk X[39-5k : 35-5k] where 5k < 8r, else the filler `=` (R65, R66). -/
def blockChar (bs : List Byte) (k : Nat) : Byte :=
  if 5 * k < 8 * bs.length then alph ((blockValue bs).extractLsb' (35 - 5 * k) 5) else padChar

/-- The 8 characters of a block (R66). -/
def encodeBlock (bs : List Byte) : List Byte := (List.range 8).map (blockChar bs)

/-- The text of a byte sequence: its blocks of 5 bytes, the last possibly partial (R66). -/
def encodeBytes : List Byte → List Byte
  | [] => []
  | [a] => encodeBlock [a]
  | [a, b] => encodeBlock [a, b]
  | [a, b, c] => encodeBlock [a, b, c]
  | [a, b, c, d] => encodeBlock [a, b, c, d]
  | a :: b :: c :: d :: e :: rest => encodeBlock [a, b, c, d, e] ++ encodeBytes rest

/-- N = 8q for q = (L + 4) div 5 blocks (R66). -/
def encodedLength (n : Nat) : Nat := 8 * ((n + 4) / 5)

/-- B32ENC (R66). -/
def execB32enc (s : State) : Result :=
  withInLen s fun n =>
    withRoom (encodedLength n) s fun _ =>
      withInput n s fun bs => .next (succeed (writeOut (encodeBytes bs) s))

/-! ### Decoding (R68 to R71) -/

/-- p, the length of the longest suffix of the input made only of `=` (R68). -/
def padRun (bs : List Byte) : Nat := (bs.reverse.takeWhile (· == padChar)).length

/-- The symbol values of the characters, or the index (counted from `i`) of the first that has none (R69). -/
def symValues : (i : Nat) → List Byte → Except Nat (List Sym)
  | _, [] => .ok []
  | i, c :: cs =>
    match symVal (fold c) with
    | none => .error i
    | some v =>
      match symValues (i + 1) cs with
      | .error j => .error j
      | .ok vs => .ok (v :: vs)

/-- StrictOK(L, p) (R71). -/
abbrev StrictOK (n p : Nat) : Prop := n % 8 = 0 ∧ (p = 0 ∨ p = 1 ∨ p = 3 ∨ p = 4 ∨ p = 6)

/-- bits5(V): each value's bits, most significant first (R9). -/
def symBits (vs : List Sym) : List Bool :=
  vs.flatMap fun v => [v.getLsbD 4, v.getLsbD 3, v.getLsbD 2, v.getLsbD 1, v.getLsbD 0]

/-- The byte whose most significant bit is `b7`. -/
def byteOfBits (b7 b6 b5 b4 b3 b2 b1 b0 : Bool) : Byte :=
  BitVec.ofBool b7 ++ BitVec.ofBool b6 ++ BitVec.ofBool b5 ++ BitVec.ofBool b4 ++
    BitVec.ofBool b3 ++ BitVec.ofBool b2 ++ BitVec.ofBool b1 ++ BitVec.ofBool b0

/-- A bit stream read in groups of 8 from the front (R9); the last bits, fewer than 8, are discarded (R69). -/
def packBits : List Bool → List Byte
  | b7 :: b6 :: b5 :: b4 :: b3 :: b2 :: b1 :: b0 :: rest => byteOfBits b7 b6 b5 b4 b3 b2 b1 b0 :: packBits rest
  | _ => []

/-- m = (5n) div 8, the bytes n symbols decode to (R69). -/
def decodedLength (n : Nat) : Nat := 5 * n / 8

/-- B32DEC (R69). The checks stand in the order of R87. -/
def execB32dec (strict : Bool) (s : State) : Result :=
  withInLen s fun n =>
    withInput n s fun bs =>
      let p := padRun bs
      match symValues 0 (bs.take (n - p)) with
      | .error i => .next (raiseError .invalidCharacter i s)
      | .ok vs =>
        if strict = true ∧ ¬ StrictOK n p then .next (raiseError .invalidPadding p s)
        else withRoom (decodedLength (n - p)) s fun _ => .next (succeed (writeOut (packBits (symBits vs)) s))

end Sys2Proof.Machine
end

