-- ==== Sys2Proof/Machine/TimeCounter.lean ====
section
/-! DEFINITION. The time-counter unit: TCTR and CTRSER (42_time_counter.md). -/

namespace Sys2Proof.Machine

/-- TCTR (R81): CTR <- T div PERIOD, the floor quotient of naturals; PERIOD = 0 is InvalidPeriod(0). -/
def execTctr (s : State) : Result :=
  if s.period = 0#32 then .next (raiseError .invalidPeriod 0 s)
  else .next (succeed (writeCtr (BitVec.ofNat 64 (s.t.toNat / s.period.toNat)) s))

/-- The 8 bytes of a counter, most significant first (R82). -/
def counterBytes (c : DWord) : List Byte := (List.range 8).map fun i => c.extractLsb' (56 - 8 * i) 8

/-- CTRSER (R82). It always succeeds. -/
def execCtrser (s : State) : Result := .next (succeed (writeOut (counterBytes s.ctr) s))

end Sys2Proof.Machine
end

