-- ==== Sys2Proof/Machine/Truncate.lean ====
section
/-! DEFINITION. The HOTP dynamic truncator: DTRUNC, MODR, DECFMT and OTPFIN (41_hotp_truncate.md). -/

namespace Sys2Proof.Machine

/-- The offset: the low four bits of the digest's last byte (R75). -/
def truncationOffset (digest : List Byte) : Nat := ((digest.getD (digest.length - 1) 0#8).extractLsb' 0 4).toNat

/-- The 31-bit value: the four bytes at the offset, big-endian, the top bit cleared (R75, R39). -/
def truncatedValue (digest : List Byte) : Word :=
  let off := truncationOffset digest
  ((digest.getD off 0#8).extractLsb' 0 7 ++ digest.getD (off + 1) 0#8 ++ digest.getD (off + 2) 0#8 ++
    digest.getD (off + 3) 0#8 : BitVec 31).setWidth 32

/-- `v mod 10^d`, the natural remainder (R76). -/
def reduceDigits (v : Word) (d : Nat) : Word := BitVec.ofNat 32 (v.toNat % 10 ^ d)

/-- The d decimal characters of v, most significant digit first, left-padded with `0` (R77). -/
def decimalChars (v d : Nat) : List Byte :=
  (List.range d).map fun i => 0x30#8 + BitVec.ofNat 8 (v / 10 ^ (d - 1 - i) % 10)

/-- DTRUNC (R75). -/
def execDtrunc (alg : HashAlg) (s : State) : Result :=
  withAlg alg s fun n =>
    withDigest n s fun digest => .next (succeed (writeVal (truncatedValue digest) s))

/-- MODR (R76). All 32 bits of VAL take part. -/
def execModr (d : Nat) (s : State) : Result :=
  withDigits d s fun _ => .next (succeed (writeCode (reduceDigits s.val d) s))

/-- DECFMT (R77): the low d decimal digits of CODE. -/
def execDecfmt (d : Nat) (s : State) : Result :=
  withDigits d s fun _ => .next (succeed (writeOut (decimalChars (s.code.toNat % 10 ^ d) d) s))

/-- OTPFIN (R78): truncate, reduce and render; every check comes before any write. -/
def execOtpfin (alg : HashAlg) (d : Nat) (s : State) : Result :=
  withAlg alg s fun n =>
    withDigits d s fun _ =>
      withDigest n s fun digest =>
        let v := truncatedValue digest
        let c := reduceDigits v d
        .next (succeed (writeOut (decimalChars c.toNat d) (writeCode c (writeVal v s))))

end Sys2Proof.Machine
end

