-- ==== Sys2Proof/Machine/Dispatch.lean ====
section
/-! DEFINITION. What each command does when its Complete step is taken (10_state.md R32): one arm per constructor. -/

namespace Sys2Proof.Machine

def exec (i : Instr) (s : State) : Host.Outcome State Fault Refusal :=
  match i with
  | .b32enc => Sys2Proof.Machine.execB32enc s
  | .b32dec strict => Sys2Proof.Machine.execB32dec strict s
  | .tctr => Sys2Proof.Machine.execTctr s
  | .ctrser => Sys2Proof.Machine.execCtrser s
  | .dtrunc alg => Sys2Proof.Machine.execDtrunc alg s
  | .modr d => Sys2Proof.Machine.execModr d s
  | .decfmt d => Sys2Proof.Machine.execDecfmt d s
  | .otpfin alg d => Sys2Proof.Machine.execOtpfin alg d s

end Sys2Proof.Machine
end

