-- ==== Sys2Proof/Machine/Engine.lean ====
section
/-! DEFINITION. The engine's Complete step and the order in which the host and the engine act (10_state.md R32,
20_memory.md R45, 70_reset_and_hazards.md R111). -/

namespace Sys2Proof.Machine

/-- Complete (R32): decode the word in progress and perform its command; an illegal word fails with IllegalCommand and
ERRINFO = w[15:0] (R58, R59). -/
def complete (w : Word) (s : State) : Result :=
  match decode w with
  | .ok i => exec i s
  | .error _ => .next (raiseError .illegalCommand (w.toNat % 65536) s)

/-- The next event (R45). No proof goes through a recorded fault (R92). While a command is in progress, Complete is taken
once the delay has run out, or when the host has nothing left to do; before that, the host's next event. While idle the
host's next event is taken; if there is none, nothing happens (R99). -/
def advance (s : State) : Result :=
  match s.faults with
  | f :: _ => .fault f
  | [] =>
    match s.phase, s.script with
    | .busy w, [] => complete w s
    | .busy w, op :: rest =>
      if s.delay = 0 then complete w s else hostStep op (countDelay (setScript rest s))
    | .idle, op :: rest => hostStep op (setScript rest s)
    | .idle, [] => .next s

/-- The state in which the very next step completes the command word `v`: as a host write of `v` to CMD while idle leaves
it (R18), with no delay left and no fault recorded. -/
def placeCommand (v : Word) (s : State) : State :=
  { s with cmd := v, phase := .busy v, done := false, err := false, delay := 0, faults := [] }

end Sys2Proof.Machine
end

