-- ==== Sys2Proof/Safety.lean ====
section
/-! DEFINITION. What counts as a safe run, in the terms claims use: the invariant of the block, and final states. -/

namespace Sys2Proof.Machine

/-- The report registers agree with the status (R19, R20, R21, R85): ERR implies DONE; a success, and the state before
any completion, holds code and detail 0 while idle; an error holds one of the codes the block raises. -/
abbrev ReportOK (s : State) : Prop :=
  (s.err = true → s.done = true) ∧
  (s.phase = .idle → s.err = false → s.errCode = 0#4 ∧ s.errInfo = 0#16) ∧
  (s.err = true → s.errCode ≠ 0#4) ∧
  s.errCode ∈ [0#4, 1#4, 2#4, 3#4, 4#4, 5#4, 7#4, 8#4, 9#4]

/-- The phase agrees with CMD and STATUS (R18, R19, R32): the word in progress is the one CMD holds, and DONE and ERR are
0 while it is in progress. -/
abbrev PhaseOK (s : State) : Prop :=
  ∀ w, s.phase = .busy w → s.cmd = w ∧ s.done = false ∧ s.err = false

/-- The buffers keep their canonical form and their capacities (R30, R31), and OUT holds every byte OUT_LEN counts (R23,
R50). -/
abbrev BuffersOK (s : State) : Prop :=
  Memory.wf s.cfg.inCap s.inBuf ∧ Memory.wf s.cfg.outCap s.outBuf ∧
  s.outLen.toNat ≤ s.cfg.outCap ∧ ∀ a, a < s.outLen.toNat → (s.outBuf.read a).isSome = true

/-- The invariant every step keeps. -/
structure State.Inv (s : State) : Prop where
  cfg : s.cfg.Legal
  report : ReportOK s
  phase : PhaseOK s
  buffers : BuffersOK s

/-- A final state of a host script: every event performed, no command in progress, no fault recorded (R92). -/
abbrev State.Final (s : State) : Prop := s.script = [] ∧ s.phase = .idle ∧ s.faults = []

end Sys2Proof.Machine
end

