-- ==== Sys2Proof/Certificates/Slice0/Obligations.lean ====
section
/-! DEFINITION. The statements about the B32R block, each from the numbered rules of spec/ it names, and the vocabulary they
are written in. The vocabulary is the spec's own arithmetic: it does not call the meanings it speaks about. -/

namespace Sys2Proof.Claims

open Sys2Proof.Machine

/-- `s` after a command that succeeded and wrote no result (10_state.md R32). -/
def succeeded (s : State) : State :=
  { s with phase := .idle, done := true, err := false, errCode := 0#4, errInfo := 0#16 }

/-- `s` after a command that failed with the code and the detail given (60_exceptions.md R86). -/
def failed (code : BitVec 4) (info : Nat) (s : State) : State :=
  { s with phase := .idle, done := true, err := true, errCode := code, errInfo := BitVec.ofNat 16 info }

/-- The byte IN[i]; used only where it has been written. -/
def inAt (s : State) (i : Nat) : Byte := (s.inBuf.read i).getD 0#8

/-- Every byte of IN[0..n) has been written since reset. -/
abbrev Written (s : State) (n : Nat) : Prop := ∀ i, i < n → s.wr i = true

/-- IN[i] is the lowest byte of IN[0..n) that has not been written since reset (70_reset_and_hazards.md R101). -/
abbrev FirstUnwritten (s : State) (n i : Nat) : Prop := i < n ∧ s.wr i = false ∧ ∀ j, j < i → s.wr j = true

/-- Bit `p` of the stream bits(IN[0..n)), most significant bit of each byte first; 0 beyond its end (00_scope.md R9,
40_base32.md R65). -/
def inBit (s : State) (n p : Nat) : Bool := decide (p < 8 * n) && (inAt s (p / 8)).getLsbD (7 - p % 8)

/-- The alphabet `A–Z2–7` in order (R63), as character codes. -/
def alphabet : List Nat := "ABCDEFGHIJKLMNOPQRSTUVWXYZ234567".toList.map Char.toNat

/-- p is the trailing pad run of IN[0..n) (R68). -/
abbrev IsPadRun (s : State) (n p : Nat) : Prop :=
  p ≤ n ∧ (∀ j, j < n → n - p ≤ j → inAt s j = 0x3D#8) ∧ (p < n → inAt s (n - p - 1) ≠ 0x3D#8)

/-- The symbol value of IN[i], none where the character is not in the alphabet after folding (R64). -/
def symbolAt (s : State) (i : Nat) : Option Sym := symVal (fold (inAt s i))

/-- Every one of the first n input bytes is an alphabet character. -/
abbrev AllSymbols (s : State) (n : Nat) : Prop := ∀ i, i < n → (symbolAt s i).isSome = true

/-- Bit q of the stream bits5(V) of the input's symbol values (R9). -/
def symbolBit (s : State) (q : Nat) : Bool := ((symbolAt s (q / 5)).getD 0#5).getLsbD (4 - q % 5)

/-- StrictOK(L, p) (R71). -/
abbrev PaddingLegal (n p : Nat) : Prop := n % 8 = 0 ∧ p ∈ [0, 1, 3, 4, 6]

/-- The supported algorithms with their ALG bits and digest lengths (R55). -/
def algorithms : List (HashAlg × Word × Nat) :=
  [(.sha1, 0x0000#32, 20), (.sha256, 0x1000#32, 32), (.sha512, 0x2000#32, 64)]

/-- The 31-bit value read from the digest IN[0..n) (41_hotp_truncate.md R75), as a number. -/
def truncated (s : State) (n : Nat) : Nat :=
  let off := (inAt s (n - 1)).toNat % 16
  (inAt s off).toNat % 128 * 2 ^ 24 + (inAt s (off + 1)).toNat * 2 ^ 16 + (inAt s (off + 2)).toNat * 2 ^ 8 +
    (inAt s (off + 3)).toNat

/-- `t` is `s` after a command that succeeded, wrote OUT[0..n) with the bytes given and set OUT_LEN to n, and wrote nothing
else: OUT bytes at index n and above read as before (10_state.md R31, R35). -/
def WroteOut (n : Nat) (byte : Nat → Byte) (s t : State) : Prop :=
  t = succeeded { s with outBuf := t.outBuf, outLen := BitVec.ofNat 16 n } ∧
  (∀ a, n ≤ a → t.outBuf.read a = s.outBuf.read a) ∧ ∀ a, a < n → t.outBuf.read a = some (byte a)

/-- Character `i` of the d decimal characters of `v`, most significant first (41_hotp_truncate.md R77). -/
def decimalChar (v d i : Nat) : Byte := BitVec.ofNat 8 (0x30 + v / 10 ^ (d - 1 - i) % 10)

/-- The number the first d bytes of OUT spell in decimal. -/
def spelled (s : State) : Nat → Nat
  | 0 => 0
  | d + 1 => 10 * spelled s d + (((s.outBuf.read d).getD 0#8).toNat - 0x30)

/-- A word the OP, RSV and field rules make illegal (30_encoding.md R59). -/
abbrev IllegalByRule (w : Word) : Prop :=
  let op := (w.extractLsb' 0 8).toNat
  let dig := (w.extractLsb' 8 4).toNat
  let alg := (w.extractLsb' 12 2).toNat
  op ∉ [0x01, 0x02, 0x10, 0x11, 0x20, 0x21, 0x22, 0x23] ∨ (w.extractLsb' 15 17).toNat ≠ 0 ∨
  (w.getLsbD 14 = true ∧ op ≠ 0x02) ∨ (alg ≠ 0 ∧ op ∉ [0x20, 0x23]) ∨ (dig ≠ 0 ∧ op ∉ [0x21, 0x22, 0x23])

/-- What a command may change when exec answers a next state (10_state.md R35): the report, and on success the columns
of its row; everything else, the other registers, both buffers and the model's own fields, is as before. -/
def ChangesOnlyItsRow (i : Instr) (s t : State) : Prop :=
  let r : State := { s with phase := t.phase, done := t.done, err := t.err, errCode := t.errCode, errInfo := t.errInfo }
  let keepsOutAbove := ∀ a, t.outLen.toNat ≤ a → t.outBuf.read a = s.outBuf.read a
  if t.err then t = r
  else
    match i with
    | .b32enc => t = { r with outBuf := t.outBuf, outLen := t.outLen } ∧ keepsOutAbove
    | .b32dec _ => t = { r with outBuf := t.outBuf, outLen := t.outLen } ∧ keepsOutAbove
    | .tctr => t = { r with ctr := t.ctr }
    | .ctrser => t = { r with outBuf := t.outBuf, outLen := t.outLen } ∧ keepsOutAbove
    | .dtrunc _ => t = { r with val := t.val }
    | .modr _ => t = { r with code := t.code }
    | .decfmt _ => t = { r with outBuf := t.outBuf, outLen := t.outLen } ∧ keepsOutAbove
    | .otpfin _ _ =>
      t = { r with val := t.val, code := t.code, outBuf := t.outBuf, outLen := t.outLen } ∧ keepsOutAbove

/-- Two states agree on what a command reads (10_state.md R35), and on the capacities. -/
def AgreeOnReads (i : Instr) (s s' : State) : Prop :=
  s.cfg = s'.cfg ∧
  match i with
  | .b32enc => s.inLen = s'.inLen ∧ ∀ a, a < s.inLen.toNat → s.inBuf.read a = s'.inBuf.read a
  | .b32dec _ => s.inLen = s'.inLen ∧ ∀ a, a < s.inLen.toNat → s.inBuf.read a = s'.inBuf.read a
  | .tctr => s.t = s'.t ∧ s.period = s'.period
  | .ctrser => s.ctr = s'.ctr
  | .dtrunc _ => s.inLen = s'.inLen ∧ ∀ a, a < s.inLen.toNat → s.inBuf.read a = s'.inBuf.read a
  | .modr _ => s.val = s'.val
  | .decfmt _ => s.code = s'.code
  | .otpfin _ _ => s.inLen = s'.inLen ∧ ∀ a, a < s.inLen.toNat → s.inBuf.read a = s'.inBuf.read a

/-- Two next states agree on the report and on every result a successful command of this kind writes (10_state.md
R35). -/
def AgreeOnResults (i : Instr) (t t' : State) : Prop :=
  t.err = t'.err ∧ t.errCode = t'.errCode ∧ t.errInfo = t'.errInfo ∧
  let sameOut := t.outLen = t'.outLen ∧ ∀ a, a < t.outLen.toNat → t.outBuf.read a = t'.outBuf.read a
  (t.err = false →
    match i with
    | .b32enc => sameOut
    | .b32dec _ => sameOut
    | .tctr => t.ctr = t'.ctr
    | .ctrser => sameOut
    | .dtrunc _ => t.val = t'.val
    | .modr _ => t.code = t'.code
    | .decfmt _ => sameOut
    | .otpfin _ _ => t.val = t'.val ∧ t.code = t'.code ∧ sameOut)

/-- IN_LEN as the digest length of `alg` (R55, R74). -/
abbrev DigestLengthOK (alg : HashAlg) (s : State) : Prop := ∃ e ∈ algorithms, e.1 = alg ∧ s.inLen.toNat = e.2.2

/-- What a command may report (60_exceptions.md R85): for each row that names the command, the code with the row's cause
and exactly the row's ERRINFO. For B32DEC, p is the trailing pad run (R68). -/
def MayReport (i : Instr) (s : State) (code : BitVec 4) (info : Half) : Prop :=
  let n := s.inLen.toNat
  let tooLong := code = 8#4 ∧ s.cfg.inCap < n ∧ info.toNat = n
  let notTheDigest := fun alg => code = 8#4 ∧ ¬ DigestLengthOK alg s ∧ info.toNat = n
  let noAlgorithm := fun alg => code = 5#4 ∧ alg = HashAlg.unsupported ∧ info.toNat = 3
  let badDigits := fun d => code = 4#4 ∧ (d = 0 ∨ 10 < d) ∧ info = BitVec.ofNat 16 d
  match i with
  | .b32enc =>
    tooLong ∨ (code = 9#4 ∧ s.cfg.outCap < 8 * ((n + 4) / 5) ∧ info.toNat = 8 * ((n + 4) / 5))
  | .b32dec strict =>
    tooLong ∨ ∃ p, IsPadRun s n p ∧
      ((code = 1#4 ∧ info.toNat < n - p ∧ symbolAt s info.toNat = none ∧ AllSymbols s info.toNat) ∨
       (code = 2#4 ∧ strict = true ∧ ¬ PaddingLegal n p ∧ info.toNat = p) ∨
       (code = 9#4 ∧ s.cfg.outCap < 5 * (n - p) / 8 ∧ info.toNat = 5 * (n - p) / 8))
  | .tctr => code = 3#4 ∧ s.period.toNat = 0 ∧ info.toNat = 0
  | .ctrser => False
  | .dtrunc alg => noAlgorithm alg ∨ notTheDigest alg
  | .modr d => badDigits d
  | .decfmt d => badDigits d
  | .otpfin alg d => noAlgorithm alg ∨ badDigits d ∨ notTheDigest alg

/-- How many bytes of IN a command consumes once its checks that read no byte have passed (R101). -/
def consumed (i : Instr) (s : State) : Nat :=
  match i with
  | .b32enc => s.inLen.toNat
  | .b32dec _ => s.inLen.toNat
  | .tctr => 0
  | .ctrser => 0
  | .dtrunc _ => s.inLen.toNat
  | .modr _ => 0
  | .decfmt _ => 0
  | .otpfin _ _ => s.inLen.toNat

/-- The offsets a host may read (10_state.md R16). -/
abbrev Readable (c : Config) (off : Nat) : Prop :=
  off % 4 = 0 ∧ (off < 0x38 ∨ (0x400 ≤ off ∧ off < 0x400 + c.inCap) ∨ (0x800 ≤ off ∧ off < 0x800 + c.outCap))

/-- The offsets a host may write while idle (10_state.md R16). -/
abbrev Writable (c : Config) (off : Nat) : Prop :=
  off % 4 = 0 ∧ (off ∈ [0x004, 0x014, 0x01C, 0x020, 0x024, 0x028, 0x02C, 0x030, 0x034] ∨
    (0x400 ≤ off ∧ off < 0x400 + c.inCap))

/-- `t` is `s` but for what the host saw and the free-value counter: no architectural state differs. -/
def SameBlock (s t : State) : Prop := t = { s with reply := t.reply, draws := t.draws }

/-- `t` is `s` with the fault BusError(off) recorded and the refusal shown to the host; nothing else differs. -/
def OnlyRefused (off : Nat) (s t : State) : Prop :=
  t = { s with faults := t.faults, reply := t.reply } ∧ Fault.busError (BitVec.ofNat 12 off) ∈ t.faults ∧
  (∀ f, f ∈ s.faults → f ∈ t.faults) ∧ (s.faults = [] → step t = .fault (.busError (BitVec.ofNat 12 off)))

/-- The reset value of each register word, by offset (10_state.md R16). -/
def resetWords : List (Nat × Word) :=
  [(0x000, 0x42333252#32), (0x004, 0#32), (0x008, 0#32), (0x00C, 0#32), (0x010, 0#32), (0x014, 0#32), (0x018, 0#32),
   (0x01C, 30#32), (0x020, 0#32), (0x024, 0#32), (0x028, 0#32), (0x02C, 0#32), (0x030, 0#32), (0x034, 0#32)]

/-- What an idle block shows at each register offset (10_state.md R16 to R29). -/
def registerWords (s : State) : List (Nat × Word) :=
  [(0x000, 0x42333252#32), (0x004, s.cmd),
   (0x008, BitVec.ofNat 32 ((if s.done then 2 else 0) + (if s.err then 4 else 0))),
   (0x00C, BitVec.ofNat 32 s.errCode.toNat), (0x010, BitVec.ofNat 32 s.errInfo.toNat),
   (0x014, BitVec.ofNat 32 s.inLen.toNat), (0x018, BitVec.ofNat 32 s.outLen.toNat), (0x01C, s.period),
   (0x020, BitVec.ofNat 32 s.t.toNat), (0x024, BitVec.ofNat 32 (s.t.toNat / 2 ^ 32)),
   (0x028, BitVec.ofNat 32 s.ctr.toNat), (0x02C, BitVec.ofNat 32 (s.ctr.toNat / 2 ^ 32)),
   (0x030, s.val), (0x034, s.code)]

/-- The byte of a word at position j, bits 8j+7 : 8j (20_memory.md R38). -/
def byteOfWord (v : Word) (j : Nat) : Byte := BitVec.ofNat 8 (v.toNat / 256 ^ j)

end Sys2Proof.Claims

open Sys2Proof Sys2Proof.Machine Sys2Proof.Claims

/-! ### Encoding -/

/-- 30_encoding.md R57, R58: every well-formed command comes back from its word, with every operand. -/
def Obligations.EncodeThenDecodeGivesTheCommand : Prop :=
  ∀ i : Instr, i.wellFormed = true → decode (encode i) = .ok i

/-- 30_encoding.md R57, R58: a word that decodes is the word of its command, so each command has one word. -/
def Obligations.DecodeThenEncodeGivesTheWord : Prop :=
  ∀ (w : Word) (i : Instr), decode w = .ok i → encode i = w ∧ i.wellFormed = true

/-- Words written out from the encodings of R57, R61 and 95_test_vectors.md section 2.9. -/
def Obligations.SampleWordsDecodeAsWritten : Prop :=
  decode 0x00000001#32 = .ok .b32enc ∧ decode 0x00004002#32 = .ok (.b32dec true) ∧ decode 0x00000010#32 = .ok .tctr ∧
  decode 0x00000011#32 = .ok .ctrser ∧ decode 0x00001020#32 = .ok (.dtrunc .sha256) ∧
  decode 0x00000621#32 = .ok (.modr 6) ∧ decode 0x00000A22#32 = .ok (.decfmt 10) ∧
  decode 0x00000823#32 = .ok (.otpfin .sha1 8) ∧ decode 0x00003F23#32 = .ok (.otpfin .unsupported 15)

/-- 30_encoding.md R59: which words are illegal, and what an illegal word in progress completes with. -/
def Obligations.IllegalWordsFailWithIllegalCommand : Prop :=
  ∀ w : Word,
    ((∃ e, decode w = .error e) ↔ IllegalByRule w) ∧
    ∀ s : State, IllegalByRule w → s.phase = .busy w → s.faults = [] → (s.delay = 0 ∨ s.script = []) →
      step s = .next (failed 7#4 (w.toNat % 65536) s)

/-! ### The step -/

/-- 10_state.md R32, 30_encoding.md R58: with a command in progress whose turn it is, a step is exec of the decoded
command, and nothing is added around it. -/
def Obligations.StepRunsTheDecodedCommand : Prop :=
  ∀ (s : State) (w : Word) (i : Instr), s.phase = .busy w → decode w = .ok i → s.faults = [] →
    (s.delay = 0 ∨ s.script = []) → step s = exec i s

/-- 20_memory.md R45, 60_exceptions.md R99: what a step is when Complete is not taken: the host's next event, with the
access counted while a command is in progress; or, in an idle block whose host has no event left, nothing. The counting is
the model's choice (log 8), and so is that the idle step is the same state (log 10). -/
def Obligations.StepTakesTheHostsNextEvent : Prop :=
  ∀ s : State, s.faults = [] →
    (∀ op rest, s.script = op :: rest →
      (s.phase = .idle → step s = hostStep op { s with script := rest }) ∧
      (∀ w n, s.phase = .busy w → s.delay = n + 1 → step s = hostStep op { s with script := rest, delay := n })) ∧
    (s.phase = .idle → s.script = [] → step s = .next s)

/-! ### Reporting -/

/-- 60_exceptions.md R86: a failing command writes its report and nothing else. -/
def Obligations.FailingCommandWritesOnlyItsReport : Prop :=
  ∀ (i : Instr) (s t : State), exec i s = .next t → t.err = true →
    t = failed t.errCode t.errInfo.toNat s ∧ statusWord t = 0b110#32

/-- 10_state.md R32: a successful command leaves the block idle and done, with ERR, ERRCODE and ERRINFO zero. -/
def Obligations.SuccessfulCommandClearsTheReport : Prop :=
  ∀ (i : Instr) (s t : State), exec i s = .next t → t.err = false →
    t.phase = .idle ∧ statusWord t = 0b010#32 ∧ t.errCode = 0#4 ∧ t.errInfo = 0#16

/-- 60_exceptions.md R85, R89: which codes each command reports, each only on its cause and with exactly its detail; never
code 6 or 10 to 15. -/
def Obligations.CommandsReportOnlyTheirErrors : Prop :=
  ∀ (i : Instr) (s t : State), s.cfg.Legal → exec i s = .next t → t.err = true → MayReport i s t.errCode t.errInfo

/-- 10_state.md R35: the write matrix, and with it the frame of every command. -/
def Obligations.CommandsChangeOnlyTheirRow : Prop :=
  ∀ (i : Instr) (s t : State), s.cfg.Legal → exec i s = .next t → ChangesOnlyItsRow i s t

/-- 10_state.md R35, R79, R84: a command's report and results are a function of what its row reads. -/
def Obligations.ResultsDependOnlyOnWhatIsRead : Prop :=
  ∀ (i : Instr) (s s' : State), AgreeOnReads i s s' →
    (∀ f, exec i s = .fault f → exec i s' = .fault f) ∧
    ∀ t, exec i s = .next t → ∃ t', exec i s' = .next t' ∧ AgreeOnResults i t t'

/-- 41_hotp_truncate.md R79, 60_exceptions.md R88: repeating a command at once gives the same results, and a failing one
fails again with the same code and detail. -/
def Obligations.RepeatingACommandChangesNothing : Prop :=
  ∀ (i : Instr) (s t : State), s.Inv → exec i s = .next t → exec i t = .next t

/-- 70_reset_and_hazards.md R101, 60_exceptions.md R92: the only stop of a command is UnwrittenInput, at the lowest
byte it consumes that the host has not written. -/
def Obligations.CommandsStopOnlyOnUnwrittenInput : Prop :=
  ∀ (i : Instr) (s : State),
    (∀ f, exec i s = .fault f → ∃ k, f = .unwrittenInput k ∧ FirstUnwritten s (consumed i s) k) ∧
    ((∃ t, exec i s = .next t) ∨ ∃ f, exec i s = .fault f)

/-! ### Base32 -/

/-- 40_base32.md R63, R64: the alphabet, its inverse and folding, over every value. -/
def Obligations.AlphabetAndFoldingAreTheTables : Prop :=
  (∀ v : Sym, alphabet[v.toNat]? = some (alph v).toNat) ∧
  (∀ (c : Byte) (v : Sym), symVal c = some v ↔ alph v = c) ∧
  ∀ c : Byte, (fold c).toNat = if 0x61 ≤ c.toNat ∧ c.toNat ≤ 0x7A then c.toNat - 0x20 else c.toNat

/-- 40_base32.md R66: B32ENC, in the order of its checks, with its word. -/
def Obligations.B32encRule : Prop :=
  encode .b32enc = 0x00000001#32 ∧
  ∀ s : State,
    let n := s.inLen.toNat
    let len := 8 * ((n + 4) / 5)
    (s.cfg.inCap < n → exec .b32enc s = .next (failed 8#4 n s)) ∧
    (n ≤ s.cfg.inCap → s.cfg.outCap < len → exec .b32enc s = .next (failed 9#4 len s)) ∧
    (n ≤ s.cfg.inCap → len ≤ s.cfg.outCap →
      (∀ i, FirstUnwritten s n i → exec .b32enc s = .fault (.unwrittenInput i)) ∧
      (Written s n → ∃ (t : State) (c : Nat → Byte), exec .b32enc s = .next t ∧ WroteOut len c s t ∧
        ∀ m, m < len →
          if 5 * m < 8 * n then
            ∃ v : Sym, c m = alph v ∧ ∀ k, k < 5 → v.getLsbD (4 - k) = inBit s n (5 * m + k)
          else c m = 0x3D#8))

/-- 40_base32.md R69, with R68 and R71: B32DEC, in the order of its checks, with its words. -/
def Obligations.B32decRule : Prop :=
  encode (.b32dec false) = 0x00000002#32 ∧ encode (.b32dec true) = 0x00004002#32 ∧
  ∀ (strict : Bool) (s : State),
    let n := s.inLen.toNat
    (s.cfg.inCap < n → exec (.b32dec strict) s = .next (failed 8#4 n s)) ∧
    (n ≤ s.cfg.inCap →
      (∀ i, FirstUnwritten s n i → exec (.b32dec strict) s = .fault (.unwrittenInput i)) ∧
      (Written s n → ∀ p, IsPadRun s n p →
        let m := 5 * (n - p) / 8
        (∀ i, i < n - p → symbolAt s i = none → AllSymbols s i →
          exec (.b32dec strict) s = .next (failed 1#4 i s)) ∧
        (AllSymbols s (n - p) → strict = true → ¬ PaddingLegal n p →
          exec (.b32dec strict) s = .next (failed 2#4 p s)) ∧
        (AllSymbols s (n - p) → (strict = true → PaddingLegal n p) → s.cfg.outCap < m →
          exec (.b32dec strict) s = .next (failed 9#4 m s)) ∧
        (AllSymbols s (n - p) → (strict = true → PaddingLegal n p) → m ≤ s.cfg.outCap →
          ∃ (t : State) (c : Nat → Byte), exec (.b32dec strict) s = .next t ∧ WroteOut m c s t ∧
            ∀ j k, j < m → k < 8 → (c j).getLsbD (7 - k) = symbolBit s (8 * j + k))))

/-- 40_base32.md R72: B32ENC, then OUT copied into IN and its length, then B32DEC in either mode, gives the bytes back.
The rule's step 2 needs OUT_LEN <= IN_CAP, which the rule does not say: a hypothesis here (log 16). -/
def Obligations.Base32RoundTrip : Prop :=
  ∀ (s : State) (strict : Bool), s.cfg.Legal → s.inLen.toNat ≤ s.cfg.inCap → Written s s.inLen.toNat →
    8 * ((s.inLen.toNat + 4) / 5) ≤ s.cfg.outCap → 8 * ((s.inLen.toNat + 4) / 5) ≤ s.cfg.inCap →
    ∃ t, exec .b32enc s = .next t ∧ t.err = false ∧
      ∀ u : State, u.cfg = s.cfg → u.inLen = t.outLen →
        (∀ a, a < t.outLen.toNat → u.inBuf.read a = t.outBuf.read a) →
        ∃ r, exec (.b32dec strict) u = .next r ∧ r.err = false ∧ r.outLen = s.inLen ∧
          ∀ a, a < s.inLen.toNat → r.outBuf.read a = s.inBuf.read a

/-- 40_base32.md R73: B32DEC on IN and on IN with every byte folded are the same run. -/
def Obligations.DecodingIgnoresLetterCase : Prop :=
  ∀ (s : State) (strict : Bool),
    let folded := s.inBuf.map fun c => (c.1, fold c.2)
    exec (.b32dec strict) { s with inBuf := folded } =
      match exec (.b32dec strict) s with
      | .next t => .next { t with inBuf := folded }
      | .fault f => .fault f
      | .refused r => .refused r

/-! ### Time counter -/

/-- 42_time_counter.md R81: TCTR. -/
def Obligations.TctrRule : Prop :=
  encode .tctr = 0x00000010#32 ∧
  ∀ s : State,
    (s.period.toNat = 0 → exec .tctr s = .next (failed 3#4 0 s)) ∧
    (s.period.toNat ≠ 0 → ∃ c : DWord, c.toNat = s.t.toNat / s.period.toNat ∧
      exec .tctr s = .next (succeeded { s with ctr := c }))

/-- 42_time_counter.md R82: CTRSER always succeeds; OUT[0] is the most significant byte; and how the host reads the eight
bytes back, through the little-endian window. -/
def Obligations.CtrserRule : Prop :=
  encode .ctrser = 0x00000011#32 ∧
  ∀ s : State, ∃ t, exec .ctrser s = .next t ∧
    WroteOut 8 (fun i => BitVec.ofNat 8 (s.ctr.toNat / 256 ^ (7 - i))) s t ∧
    (s.cfg.Legal → ∀ k, k < 2 → ∃ u v, hostStep (.read (t.cfg.base + (0x800 + 4 * k)) 4) t = .next u ∧
      u.reply = .data v ∧ ∀ j, j < 4 → byteOfWord v j = BitVec.ofNat 8 (s.ctr.toNat / 256 ^ (7 - (4 * k + j))))

/-! ### Truncator -/

/-- 41_hotp_truncate.md R75, on the digest view of R74: DTRUNC, in the order of its checks, with its words. -/
def Obligations.DtruncRule : Prop :=
  ∀ s : State,
    exec (.dtrunc .unsupported) s = .next (failed 5#4 3 s) ∧
    ∀ e ∈ algorithms,
      let alg := e.1
      let n := e.2.2
      encode (.dtrunc alg) = 0x00000020#32 ||| e.2.1 ∧
      (s.inLen.toNat ≠ n → exec (.dtrunc alg) s = .next (failed 8#4 s.inLen.toNat s)) ∧
      (s.inLen.toNat = n →
        (∀ i, FirstUnwritten s n i → exec (.dtrunc alg) s = .fault (.unwrittenInput i)) ∧
        (Written s n → ∃ v : Word, v.toNat = truncated s n ∧
          exec (.dtrunc alg) s = .next (succeeded { s with val := v })))

/-- 41_hotp_truncate.md R76: MODR. -/
def Obligations.ModrRule : Prop :=
  ∀ (d : Nat) (s : State), d < 16 →
    encode (.modr d) = BitVec.ofNat 32 (0x21 + d * 256) ∧
    (d = 0 ∨ 10 < d → exec (.modr d) s = .next (failed 4#4 d s)) ∧
    (1 ≤ d → d ≤ 10 → ∃ c : Word, c.toNat = s.val.toNat % 10 ^ d ∧
      exec (.modr d) s = .next (succeeded { s with code := c }))

/-- 41_hotp_truncate.md R77: DECFMT. -/
def Obligations.DecfmtRule : Prop :=
  ∀ (d : Nat) (s : State), d < 16 →
    encode (.decfmt d) = BitVec.ofNat 32 (0x22 + d * 256) ∧
    (d = 0 ∨ 10 < d → exec (.decfmt d) s = .next (failed 4#4 d s)) ∧
    (1 ≤ d → d ≤ 10 → ∃ t, exec (.decfmt d) s = .next t ∧
      WroteOut d (decimalChar (s.code.toNat % 10 ^ d) d) s t)

/-- 41_hotp_truncate.md R78: OTPFIN, in the order of its checks, with its words. -/
def Obligations.OtpfinRule : Prop :=
  ∀ (d : Nat) (s : State), d < 16 →
    exec (.otpfin .unsupported d) s = .next (failed 5#4 3 s) ∧
    ∀ e ∈ algorithms,
      let alg := e.1
      let n := e.2.2
      encode (.otpfin alg d) = BitVec.ofNat 32 (0x23 + d * 256) ||| e.2.1 ∧
      (d = 0 ∨ 10 < d → exec (.otpfin alg d) s = .next (failed 4#4 d s)) ∧
      (1 ≤ d → d ≤ 10 →
        (s.inLen.toNat ≠ n → exec (.otpfin alg d) s = .next (failed 8#4 s.inLen.toNat s)) ∧
        (s.inLen.toNat = n →
          (∀ i, FirstUnwritten s n i → exec (.otpfin alg d) s = .fault (.unwrittenInput i)) ∧
          (Written s n → ∃ (t : State) (v c : Word), v.toNat = truncated s n ∧ c.toNat = truncated s n % 10 ^ d ∧
            exec (.otpfin alg d) s = .next t ∧
            WroteOut d (decimalChar c.toNat d) { s with val := v, code := c } t)))

/-- 41_hotp_truncate.md R78: the end state of OTPFIN is that of DTRUNC, then MODR d, then DECFMT d, whenever all three
succeed. -/
def Obligations.OtpfinIsTheThreeInSequence : Prop :=
  ∀ (alg : HashAlg) (d : Nat) (s a b c : State),
    exec (.dtrunc alg) s = .next a → a.err = false →
    exec (.modr d) a = .next b → b.err = false →
    exec (.decfmt d) b = .next c → c.err = false →
    exec (.otpfin alg d) s = .next c

/-- 41_hotp_truncate.md R80: the ranges of VAL, CODE and the digits, and the number the digits spell. -/
def Obligations.TruncatorResultsAreInRange : Prop :=
  ∀ (alg : HashAlg) (d : Nat) (s t : State), t.err = false →
    (exec (.dtrunc alg) s = .next t → t.val.toNat < 2 ^ 31) ∧
    (exec (.modr d) s = .next t → t.code.toNat < 10 ^ d) ∧
    (exec (.decfmt d) s = .next t →
      (∀ i, i < d → ∃ b, t.outBuf.read i = some b ∧ 0x30 ≤ b.toNat ∧ b.toNat ≤ 0x39) ∧
      spelled t d = s.code.toNat % 10 ^ d) ∧
    (exec (.otpfin alg d) s = .next t →
      t.val.toNat < 2 ^ 31 ∧ t.code.toNat < 10 ^ d ∧
      (∀ i, i < d → ∃ b, t.outBuf.read i = some b ∧ 0x30 ≤ b.toNat ∧ b.toNat ≤ 0x39) ∧
      spelled t d = t.code.toNat)

/-! ### The host window -/

/-- 10_state.md R18: a write to CMD while idle starts a command, whatever the word; CMD reads back, idle or busy; while a
command is in progress the write is the hazard of R104; after reset CMD is 0. -/
def Obligations.CmdWriteStartsACommand : Prop :=
  ∀ (s : State) (v : Word),
    (s.phase = .idle → ∃ t, hostStep (.write (s.cfg.base + 0x004) 4 v) s = .next t ∧
      t = { s with cmd := v, phase := .busy v, done := false, err := false,
                   delay := t.delay, draws := t.draws, reply := t.reply } ∧ statusWord t = 0b001#32) ∧
    (∀ w, s.phase = .busy w →
      hostStep (.write (s.cfg.base + 0x004) 4 v) s = .fault (.hostWriteWhileBusy 0x004#12)) ∧
    (∃ t, hostStep (.read (s.cfg.base + 0x004) 4) s = .next t ∧ t.reply = .data s.cmd ∧ SameBlock s t) ∧
    State.reset.cmd = 0#32

/-- 10_state.md R22, R25 to R29: the other registers the host writes: each write changes its register, in the bits used,
and nothing else; a write to one half of T or CTR leaves the other half. -/
def Obligations.RegisterWritesStoreTheirValue : Prop :=
  ∀ (s : State) (v : Word), s.phase = .idle →
    let w := fun off => hostStep (.write (s.cfg.base + off) 4 v) s
    w 0x014 = .next { s with inLen := BitVec.ofNat 16 v.toNat, reply := .noData } ∧
    w 0x01C = .next { s with period := v, reply := .noData } ∧
    w 0x020 = .next { s with t := BitVec.ofNat 64 (s.t.toNat / 2 ^ 32 * 2 ^ 32 + v.toNat), reply := .noData } ∧
    w 0x024 = .next { s with t := BitVec.ofNat 64 (v.toNat * 2 ^ 32 + s.t.toNat % 2 ^ 32), reply := .noData } ∧
    w 0x028 = .next { s with ctr := BitVec.ofNat 64 (s.ctr.toNat / 2 ^ 32 * 2 ^ 32 + v.toNat), reply := .noData } ∧
    w 0x02C = .next { s with ctr := BitVec.ofNat 64 (v.toNat * 2 ^ 32 + s.ctr.toNat % 2 ^ 32), reply := .noData } ∧
    w 0x030 = .next { s with val := v, reply := .noData } ∧
    w 0x034 = .next { s with code := v, reply := .noData }

/-- 10_state.md R16 to R29: what an idle block shows at each register offset; a read changes no state of the block. -/
def Obligations.RegisterReadsShowTheirValue : Prop :=
  ∀ s : State, s.phase = .idle → ∀ e ∈ registerWords s,
    ∃ t, hostStep (.read (s.cfg.base + e.1) 4) s = .next t ∧ t.reply = .data e.2 ∧ SameBlock s t

/-- 20_memory.md R38: a write of an IN word stores its four bytes, byte 4k in bits 7:0, and marks them written; every
other byte reads as before, and nothing else changes. -/
def Obligations.InWordWriteStoresFourBytes : Prop :=
  ∀ (s : State) (k : Nat) (v : Word), s.cfg.Legal → s.phase = .idle → 4 * k < s.cfg.inCap →
    ∃ t, hostStep (.write (s.cfg.base + (0x400 + 4 * k)) 4 v) s = .next t ∧
      t = { s with inBuf := t.inBuf, reply := t.reply } ∧
      (∀ j, j < 4 → t.inBuf.read (4 * k + j) = some (byteOfWord v j) ∧ t.wr (4 * k + j) = true) ∧
      ∀ a, a < 4 * k ∨ 4 * k + 4 ≤ a → t.inBuf.read a = s.inBuf.read a

/-- 10_state.md R30, R31, 20_memory.md R38, 70_reset_and_hazards.md R102: an idle read of a buffer word is answered, and
each byte of the reply is the last byte written there; nothing is said of a byte never written. -/
def Obligations.BufferWordReadsPackTheBytes : Prop :=
  ∀ (s : State) (k j : Nat), s.cfg.Legal → s.phase = .idle → j < 4 →
    (4 * k < s.cfg.inCap → ∃ t v, hostStep (.read (s.cfg.base + (0x400 + 4 * k)) 4) s = .next t ∧
      t.reply = .data v ∧ SameBlock s t ∧ ∀ b, s.inBuf.read (4 * k + j) = some b → byteOfWord v j = b) ∧
    (4 * k < s.cfg.outCap → ∃ t v, hostStep (.read (s.cfg.base + (0x800 + 4 * k)) 4) s = .next t ∧
      t.reply = .data v ∧ SameBlock s t ∧ ∀ b, s.outBuf.read (4 * k + j) = some b → byteOfWord v j = b)

/-- 20_memory.md R40: the refused accesses of an idle block, and the refused reads of a busy one: no state of the block
changes, and the fault is recorded. That the model stops at the next step is its own choice (log 3). -/
def Obligations.RefusedAccessChangesNoState : Prop :=
  ∀ (s : State) (off width : Nat) (v : Word), s.cfg.Legal → off < 4096 →
    (¬ (width = 4 ∧ Readable s.cfg off) →
      ∃ t, hostStep (.read (s.cfg.base + off) width) s = .next t ∧ OnlyRefused off s t) ∧
    (s.phase = .idle → ¬ (width = 4 ∧ Writable s.cfg off) →
      ∃ t, hostStep (.write (s.cfg.base + off) width v) s = .next t ∧ OnlyRefused off s t)

/-- 20_memory.md R40, R42, R44: every other access is permitted, and a read has no side effect. -/
def Obligations.OtherAccessesArePermitted : Prop :=
  ∀ (s : State) (off : Nat) (v : Word), s.cfg.Legal →
    (Readable s.cfg off →
      ∃ t x, hostStep (.read (s.cfg.base + off) 4) s = .next t ∧ t.reply = .data x ∧ SameBlock s t) ∧
    (s.phase = .idle → Writable s.cfg off →
      ∃ t, hostStep (.write (s.cfg.base + off) 4 v) s = .next t ∧ t.reply = .noData ∧ t.faults = s.faults)

/-- 20_memory.md R42: two reads of a location in succession return the same value, of a register or of a buffer word
whose bytes have been written, or of any IN word. For OUT bytes never written R102 says otherwise (log 18). -/
def Obligations.RepeatedReadsAgree : Prop :=
  ∀ (s t u : State) (off : Nat), s.cfg.Legal → s.phase = .idle →
    (off < 0x800 ∨ ∀ j, j < 4 → (s.outBuf.read (off - 0x800 + j)).isSome = true) →
    Readable s.cfg off →
    hostStep (.read (s.cfg.base + off) 4) s = .next t → hostStep (.read (s.cfg.base + off) 4) t = .next u →
    t.reply = u.reply

/-- 70_reset_and_hazards.md R104: a host write to any offset of the window while busy. That the step itself ends in the fault
is the form the model gives it (log 4). That R104 comes before the refusals of R40, and that a misaligned write or one not 4
bytes wide is this hazard too, is the model's deduction from R104's "any offset" (log 11). -/
def Obligations.WriteWhileBusyIsAHazard : Prop :=
  ∀ (s : State) (w : Word) (off width : Nat) (v : Word), s.phase = .busy w → off < 4096 →
    hostStep (.write (s.cfg.base + off) width v) s = .fault (.hostWriteWhileBusy (BitVec.ofNat 12 off))

/-- 70_reset_and_hazards.md R105: reads while busy are permitted and do not affect the command; STATUS, CMD and ID return
their words. Nothing is said of the value of any other read. -/
def Obligations.ReadsWhileBusy : Prop :=
  ∀ (s : State) (w : Word), s.Inv → s.phase = .busy w →
    (∃ t, hostStep (.read (s.cfg.base + 0x008) 4) s = .next t ∧ t.reply = .data 0b001#32 ∧ SameBlock s t) ∧
    (∃ t, hostStep (.read (s.cfg.base + 0x004) 4) s = .next t ∧ t.reply = .data w ∧ SameBlock s t) ∧
    (∃ t, hostStep (.read (s.cfg.base + 0x000) 4) s = .next t ∧ t.reply = .data 0x42333252#32 ∧ SameBlock s t) ∧
    ∀ off, Readable s.cfg off →
      ∃ t x, hostStep (.read (s.cfg.base + off) 4) s = .next t ∧ t.reply = .data x ∧ SameBlock s t

/-- 10_state.md R15, 20_memory.md R43: an access outside the window changes nothing in the block. That the model lets it
pass in silence is its own choice (log 12). -/
def Obligations.AccessOutsideTheWindowIsNotTheBlocks : Prop :=
  ∀ (s : State) (addr width : Nat) (v : Word), addr < s.cfg.base ∨ s.cfg.base + 4096 ≤ addr →
    hostStep (.read addr width) s = .next { s with reply := .noData } ∧
    hostStep (.write addr width v) s = .next { s with reply := .noData }

/-! ### Reset -/

/-- 70_reset_and_hazards.md R100, 10_state.md R16: RESET in any state: each register reads its reset value, the phase is
Idle, no IN byte counts as written, neither buffer holds a value, a command in progress is gone without a report, and the
fault set stays. -/
def Obligations.ResetGivesTheResetValues : Prop :=
  ∀ s : State, ∃ t, hostStep .reset s = .next t ∧ t.cfg = s.cfg ∧ t.phase = .idle ∧ t.faults = s.faults ∧
    (∀ i, t.wr i = false) ∧ (∀ i, t.outBuf.read i = none) ∧
    ∀ e ∈ resetWords, ∃ u, hostStep (.read (t.cfg.base + e.1) 4) t = .next u ∧ u.reply = .data e.2

/-- 10_state.md R16: the machine right after reset shows the reset value of every register, at the reference capacities
(00_scope.md R6). -/
def Obligations.ResetStateShowsTheRegisterMap : Prop :=
  State.reset.cfg.inCap = 320 ∧ State.reset.cfg.outCap = 512 ∧ State.reset.phase = .idle ∧
  ∀ e ∈ resetWords, ∃ u, hostStep (.read (State.reset.cfg.base + e.1) 4) State.reset = .next u ∧ u.reply = .data e.2

/-! ### Whole-machine rules -/

/-- 10_state.md R15, R19, R32, R50: every step keeps the invariant, from every state that has it. -/
def Obligations.StepKeepsTheInvariant : Prop :=
  ∀ s t : State, s.Inv → step s = .next t → t.Inv

/-- 70_reset_and_hazards.md R100: the state after reset has the invariant, with any legal parameters. -/
def Obligations.ResetHasTheInvariant : Prop :=
  State.reset.Inv ∧ ∀ c : Config, c.Legal → (State.resetWith c).Inv

/-- 20_memory.md R48: a command in progress is completed, reset away, or left as it is: until then no event changes its
word, its inputs or any register. -/
def Obligations.CommandInProgressIsNotChanged : Prop :=
  ∀ (s t : State) (w : Word), s.phase = .busy w → step s = .next t →
    complete w s = .next t ∨
    (∃ rest, s.script = .reset :: rest ∧ hostStep .reset { s with script := rest, delay := s.delay - 1 } = .next t) ∨
    t = { s with script := t.script, delay := t.delay, draws := t.draws, reply := t.reply, faults := t.faults }

/-- 10_state.md R30, R33, 92_eei_decisions.md D35: only a host write to IN changes IN, and only a reset clears it. -/
def Obligations.OnlyTheHostWritesIn : Prop :=
  ∀ s t : State, step s = .next t → t.inBuf ≠ s.inBuf →
    ∃ op rest, s.script = op :: rest ∧
      (op = .reset ∨ ∃ addr width v, op = .write addr width v ∧
        s.cfg.base + 0x400 ≤ addr ∧ addr < s.cfg.base + 0x400 + s.cfg.inCap)

/-- 60_exceptions.md R92: a recorded fault is never cleared, not by RESET, and no step goes through it. The parameters
(00_scope.md R6) never change either. -/
def Obligations.FaultsAndParametersAreNeverCleared : Prop :=
  (∀ (op : HostOp) (s t : State), hostStep op s = .next t → t.cfg = s.cfg ∧ ∀ f, f ∈ s.faults → f ∈ t.faults) ∧
  (∀ (w : Word) (s t : State), complete w s = .next t → t.cfg = s.cfg ∧ t.faults = s.faults) ∧
  ∀ (s : State) (f : Fault), f ∈ s.faults → ∃ g, step s = .fault g ∧ g ∈ s.faults

/-- 70_reset_and_hazards.md R111, R112: a POLL loop terminates, whatever the delay, and leaves exactly what Complete
answers; the host's last read shows BUSY = 0. -/
def Obligations.PollEndsWithTheCompletion : Prop :=
  ∀ (s c : State) (w : Word), s.faults = [] → s.phase = .busy w → s.script = [.poll] → complete w s = .next c →
    ∃ (k : Nat) (t : State) (v : Word), Host.Core.run core k s = .next t ∧ t.Final ∧
      t = { c with script := [], delay := t.delay, draws := t.draws, reply := .data v } ∧ v.getLsbD 0 = false
end

