-- ==== Sys2Proof/Laws/State.lean ====
section
/-! SUPPORT. What each named update of the state does to each field: one lemma per field per update, so that no proof
unfolds a record update. -/

namespace Sys2Proof.Machine

variable (s : State)

/-! `raiseError` -/

@[simp] theorem raiseError_cfg (e : ErrorKind) (n : Nat) : (raiseError e n s).cfg = s.cfg := rfl
@[simp] theorem raiseError_phase (e : ErrorKind) (n : Nat) : (raiseError e n s).phase = .idle := rfl
@[simp] theorem raiseError_cmd (e : ErrorKind) (n : Nat) : (raiseError e n s).cmd = s.cmd := rfl
@[simp] theorem raiseError_done (e : ErrorKind) (n : Nat) : (raiseError e n s).done = true := rfl
@[simp] theorem raiseError_err (e : ErrorKind) (n : Nat) : (raiseError e n s).err = true := rfl
@[simp] theorem raiseError_errCode (e : ErrorKind) (n : Nat) : (raiseError e n s).errCode = errorCode e := rfl
@[simp] theorem raiseError_errInfo (e : ErrorKind) (n : Nat) : (raiseError e n s).errInfo = BitVec.ofNat 16 n := rfl
@[simp] theorem raiseError_inLen (e : ErrorKind) (n : Nat) : (raiseError e n s).inLen = s.inLen := rfl
@[simp] theorem raiseError_outLen (e : ErrorKind) (n : Nat) : (raiseError e n s).outLen = s.outLen := rfl
@[simp] theorem raiseError_period (e : ErrorKind) (n : Nat) : (raiseError e n s).period = s.period := rfl
@[simp] theorem raiseError_t (e : ErrorKind) (n : Nat) : (raiseError e n s).t = s.t := rfl
@[simp] theorem raiseError_ctr (e : ErrorKind) (n : Nat) : (raiseError e n s).ctr = s.ctr := rfl
@[simp] theorem raiseError_val (e : ErrorKind) (n : Nat) : (raiseError e n s).val = s.val := rfl
@[simp] theorem raiseError_code (e : ErrorKind) (n : Nat) : (raiseError e n s).code = s.code := rfl
@[simp] theorem raiseError_inBuf (e : ErrorKind) (n : Nat) : (raiseError e n s).inBuf = s.inBuf := rfl
@[simp] theorem raiseError_outBuf (e : ErrorKind) (n : Nat) : (raiseError e n s).outBuf = s.outBuf := rfl
@[simp] theorem raiseError_faults (e : ErrorKind) (n : Nat) : (raiseError e n s).faults = s.faults := rfl
@[simp] theorem raiseError_draws (e : ErrorKind) (n : Nat) : (raiseError e n s).draws = s.draws := rfl
@[simp] theorem raiseError_inDraw (e : ErrorKind) (n : Nat) : (raiseError e n s).inDraw = s.inDraw := rfl
@[simp] theorem raiseError_delay (e : ErrorKind) (n : Nat) : (raiseError e n s).delay = s.delay := rfl
@[simp] theorem raiseError_script (e : ErrorKind) (n : Nat) : (raiseError e n s).script = s.script := rfl
@[simp] theorem raiseError_reply (e : ErrorKind) (n : Nat) : (raiseError e n s).reply = s.reply := rfl

/-! `succeed` -/

@[simp] theorem succeed_cfg : (succeed s).cfg = s.cfg := rfl
@[simp] theorem succeed_phase : (succeed s).phase = .idle := rfl
@[simp] theorem succeed_cmd : (succeed s).cmd = s.cmd := rfl
@[simp] theorem succeed_done : (succeed s).done = true := rfl
@[simp] theorem succeed_err : (succeed s).err = false := rfl
@[simp] theorem succeed_errCode : (succeed s).errCode = 0#4 := rfl
@[simp] theorem succeed_errInfo : (succeed s).errInfo = 0#16 := rfl
@[simp] theorem succeed_inLen : (succeed s).inLen = s.inLen := rfl
@[simp] theorem succeed_outLen : (succeed s).outLen = s.outLen := rfl
@[simp] theorem succeed_period : (succeed s).period = s.period := rfl
@[simp] theorem succeed_t : (succeed s).t = s.t := rfl
@[simp] theorem succeed_ctr : (succeed s).ctr = s.ctr := rfl
@[simp] theorem succeed_val : (succeed s).val = s.val := rfl
@[simp] theorem succeed_code : (succeed s).code = s.code := rfl
@[simp] theorem succeed_inBuf : (succeed s).inBuf = s.inBuf := rfl
@[simp] theorem succeed_outBuf : (succeed s).outBuf = s.outBuf := rfl
@[simp] theorem succeed_faults : (succeed s).faults = s.faults := rfl
@[simp] theorem succeed_draws : (succeed s).draws = s.draws := rfl
@[simp] theorem succeed_inDraw : (succeed s).inDraw = s.inDraw := rfl
@[simp] theorem succeed_delay : (succeed s).delay = s.delay := rfl
@[simp] theorem succeed_script : (succeed s).script = s.script := rfl
@[simp] theorem succeed_reply : (succeed s).reply = s.reply := rfl

/-! `writeOut` -/

@[simp] theorem writeOut_cfg (bs : List Byte) : (writeOut bs s).cfg = s.cfg := rfl
@[simp] theorem writeOut_phase (bs : List Byte) : (writeOut bs s).phase = s.phase := rfl
@[simp] theorem writeOut_cmd (bs : List Byte) : (writeOut bs s).cmd = s.cmd := rfl
@[simp] theorem writeOut_done (bs : List Byte) : (writeOut bs s).done = s.done := rfl
@[simp] theorem writeOut_err (bs : List Byte) : (writeOut bs s).err = s.err := rfl
@[simp] theorem writeOut_errCode (bs : List Byte) : (writeOut bs s).errCode = s.errCode := rfl
@[simp] theorem writeOut_errInfo (bs : List Byte) : (writeOut bs s).errInfo = s.errInfo := rfl
@[simp] theorem writeOut_inLen (bs : List Byte) : (writeOut bs s).inLen = s.inLen := rfl
@[simp] theorem writeOut_outLen (bs : List Byte) : (writeOut bs s).outLen = BitVec.ofNat 16 bs.length := rfl
@[simp] theorem writeOut_period (bs : List Byte) : (writeOut bs s).period = s.period := rfl
@[simp] theorem writeOut_t (bs : List Byte) : (writeOut bs s).t = s.t := rfl
@[simp] theorem writeOut_ctr (bs : List Byte) : (writeOut bs s).ctr = s.ctr := rfl
@[simp] theorem writeOut_val (bs : List Byte) : (writeOut bs s).val = s.val := rfl
@[simp] theorem writeOut_code (bs : List Byte) : (writeOut bs s).code = s.code := rfl
@[simp] theorem writeOut_inBuf (bs : List Byte) : (writeOut bs s).inBuf = s.inBuf := rfl
@[simp] theorem writeOut_outBuf (bs : List Byte) : (writeOut bs s).outBuf = s.outBuf.writeBytes 0 bs := rfl
@[simp] theorem writeOut_faults (bs : List Byte) : (writeOut bs s).faults = s.faults := rfl
@[simp] theorem writeOut_draws (bs : List Byte) : (writeOut bs s).draws = s.draws := rfl
@[simp] theorem writeOut_inDraw (bs : List Byte) : (writeOut bs s).inDraw = s.inDraw := rfl
@[simp] theorem writeOut_delay (bs : List Byte) : (writeOut bs s).delay = s.delay := rfl
@[simp] theorem writeOut_script (bs : List Byte) : (writeOut bs s).script = s.script := rfl
@[simp] theorem writeOut_reply (bs : List Byte) : (writeOut bs s).reply = s.reply := rfl

/-! `writeCtr` -/

@[simp] theorem writeCtr_cfg (v : DWord) : (writeCtr v s).cfg = s.cfg := rfl
@[simp] theorem writeCtr_phase (v : DWord) : (writeCtr v s).phase = s.phase := rfl
@[simp] theorem writeCtr_cmd (v : DWord) : (writeCtr v s).cmd = s.cmd := rfl
@[simp] theorem writeCtr_done (v : DWord) : (writeCtr v s).done = s.done := rfl
@[simp] theorem writeCtr_err (v : DWord) : (writeCtr v s).err = s.err := rfl
@[simp] theorem writeCtr_errCode (v : DWord) : (writeCtr v s).errCode = s.errCode := rfl
@[simp] theorem writeCtr_errInfo (v : DWord) : (writeCtr v s).errInfo = s.errInfo := rfl
@[simp] theorem writeCtr_inLen (v : DWord) : (writeCtr v s).inLen = s.inLen := rfl
@[simp] theorem writeCtr_outLen (v : DWord) : (writeCtr v s).outLen = s.outLen := rfl
@[simp] theorem writeCtr_period (v : DWord) : (writeCtr v s).period = s.period := rfl
@[simp] theorem writeCtr_t (v : DWord) : (writeCtr v s).t = s.t := rfl
@[simp] theorem writeCtr_ctr (v : DWord) : (writeCtr v s).ctr = v := rfl
@[simp] theorem writeCtr_val (v : DWord) : (writeCtr v s).val = s.val := rfl
@[simp] theorem writeCtr_code (v : DWord) : (writeCtr v s).code = s.code := rfl
@[simp] theorem writeCtr_inBuf (v : DWord) : (writeCtr v s).inBuf = s.inBuf := rfl
@[simp] theorem writeCtr_outBuf (v : DWord) : (writeCtr v s).outBuf = s.outBuf := rfl
@[simp] theorem writeCtr_faults (v : DWord) : (writeCtr v s).faults = s.faults := rfl
@[simp] theorem writeCtr_draws (v : DWord) : (writeCtr v s).draws = s.draws := rfl
@[simp] theorem writeCtr_inDraw (v : DWord) : (writeCtr v s).inDraw = s.inDraw := rfl
@[simp] theorem writeCtr_delay (v : DWord) : (writeCtr v s).delay = s.delay := rfl
@[simp] theorem writeCtr_script (v : DWord) : (writeCtr v s).script = s.script := rfl
@[simp] theorem writeCtr_reply (v : DWord) : (writeCtr v s).reply = s.reply := rfl

/-! `writeVal` -/

@[simp] theorem writeVal_cfg (v : Word) : (writeVal v s).cfg = s.cfg := rfl
@[simp] theorem writeVal_phase (v : Word) : (writeVal v s).phase = s.phase := rfl
@[simp] theorem writeVal_cmd (v : Word) : (writeVal v s).cmd = s.cmd := rfl
@[simp] theorem writeVal_done (v : Word) : (writeVal v s).done = s.done := rfl
@[simp] theorem writeVal_err (v : Word) : (writeVal v s).err = s.err := rfl
@[simp] theorem writeVal_errCode (v : Word) : (writeVal v s).errCode = s.errCode := rfl
@[simp] theorem writeVal_errInfo (v : Word) : (writeVal v s).errInfo = s.errInfo := rfl
@[simp] theorem writeVal_inLen (v : Word) : (writeVal v s).inLen = s.inLen := rfl
@[simp] theorem writeVal_outLen (v : Word) : (writeVal v s).outLen = s.outLen := rfl
@[simp] theorem writeVal_period (v : Word) : (writeVal v s).period = s.period := rfl
@[simp] theorem writeVal_t (v : Word) : (writeVal v s).t = s.t := rfl
@[simp] theorem writeVal_ctr (v : Word) : (writeVal v s).ctr = s.ctr := rfl
@[simp] theorem writeVal_val (v : Word) : (writeVal v s).val = v := rfl
@[simp] theorem writeVal_code (v : Word) : (writeVal v s).code = s.code := rfl
@[simp] theorem writeVal_inBuf (v : Word) : (writeVal v s).inBuf = s.inBuf := rfl
@[simp] theorem writeVal_outBuf (v : Word) : (writeVal v s).outBuf = s.outBuf := rfl
@[simp] theorem writeVal_faults (v : Word) : (writeVal v s).faults = s.faults := rfl
@[simp] theorem writeVal_draws (v : Word) : (writeVal v s).draws = s.draws := rfl
@[simp] theorem writeVal_inDraw (v : Word) : (writeVal v s).inDraw = s.inDraw := rfl
@[simp] theorem writeVal_delay (v : Word) : (writeVal v s).delay = s.delay := rfl
@[simp] theorem writeVal_script (v : Word) : (writeVal v s).script = s.script := rfl
@[simp] theorem writeVal_reply (v : Word) : (writeVal v s).reply = s.reply := rfl

/-! `writeCode` -/

@[simp] theorem writeCode_cfg (v : Word) : (writeCode v s).cfg = s.cfg := rfl
@[simp] theorem writeCode_phase (v : Word) : (writeCode v s).phase = s.phase := rfl
@[simp] theorem writeCode_cmd (v : Word) : (writeCode v s).cmd = s.cmd := rfl
@[simp] theorem writeCode_done (v : Word) : (writeCode v s).done = s.done := rfl
@[simp] theorem writeCode_err (v : Word) : (writeCode v s).err = s.err := rfl
@[simp] theorem writeCode_errCode (v : Word) : (writeCode v s).errCode = s.errCode := rfl
@[simp] theorem writeCode_errInfo (v : Word) : (writeCode v s).errInfo = s.errInfo := rfl
@[simp] theorem writeCode_inLen (v : Word) : (writeCode v s).inLen = s.inLen := rfl
@[simp] theorem writeCode_outLen (v : Word) : (writeCode v s).outLen = s.outLen := rfl
@[simp] theorem writeCode_period (v : Word) : (writeCode v s).period = s.period := rfl
@[simp] theorem writeCode_t (v : Word) : (writeCode v s).t = s.t := rfl
@[simp] theorem writeCode_ctr (v : Word) : (writeCode v s).ctr = s.ctr := rfl
@[simp] theorem writeCode_val (v : Word) : (writeCode v s).val = s.val := rfl
@[simp] theorem writeCode_code (v : Word) : (writeCode v s).code = v := rfl
@[simp] theorem writeCode_inBuf (v : Word) : (writeCode v s).inBuf = s.inBuf := rfl
@[simp] theorem writeCode_outBuf (v : Word) : (writeCode v s).outBuf = s.outBuf := rfl
@[simp] theorem writeCode_faults (v : Word) : (writeCode v s).faults = s.faults := rfl
@[simp] theorem writeCode_draws (v : Word) : (writeCode v s).draws = s.draws := rfl
@[simp] theorem writeCode_inDraw (v : Word) : (writeCode v s).inDraw = s.inDraw := rfl
@[simp] theorem writeCode_delay (v : Word) : (writeCode v s).delay = s.delay := rfl
@[simp] theorem writeCode_script (v : Word) : (writeCode v s).script = s.script := rfl
@[simp] theorem writeCode_reply (v : Word) : (writeCode v s).reply = s.reply := rfl

/-! `startCommand` -/

@[simp] theorem startCommand_cfg (v : Word) : (startCommand v s).cfg = s.cfg := rfl
@[simp] theorem startCommand_phase (v : Word) : (startCommand v s).phase = .busy v := rfl
@[simp] theorem startCommand_cmd (v : Word) : (startCommand v s).cmd = v := rfl
@[simp] theorem startCommand_done (v : Word) : (startCommand v s).done = false := rfl
@[simp] theorem startCommand_err (v : Word) : (startCommand v s).err = false := rfl
@[simp] theorem startCommand_errCode (v : Word) : (startCommand v s).errCode = s.errCode := rfl
@[simp] theorem startCommand_errInfo (v : Word) : (startCommand v s).errInfo = s.errInfo := rfl
@[simp] theorem startCommand_inLen (v : Word) : (startCommand v s).inLen = s.inLen := rfl
@[simp] theorem startCommand_outLen (v : Word) : (startCommand v s).outLen = s.outLen := rfl
@[simp] theorem startCommand_period (v : Word) : (startCommand v s).period = s.period := rfl
@[simp] theorem startCommand_t (v : Word) : (startCommand v s).t = s.t := rfl
@[simp] theorem startCommand_ctr (v : Word) : (startCommand v s).ctr = s.ctr := rfl
@[simp] theorem startCommand_val (v : Word) : (startCommand v s).val = s.val := rfl
@[simp] theorem startCommand_code (v : Word) : (startCommand v s).code = s.code := rfl
@[simp] theorem startCommand_inBuf (v : Word) : (startCommand v s).inBuf = s.inBuf := rfl
@[simp] theorem startCommand_outBuf (v : Word) : (startCommand v s).outBuf = s.outBuf := rfl
@[simp] theorem startCommand_faults (v : Word) : (startCommand v s).faults = s.faults := rfl
@[simp] theorem startCommand_draws (v : Word) : (startCommand v s).draws = s.draws + 1 := rfl
@[simp] theorem startCommand_inDraw (v : Word) : (startCommand v s).inDraw = s.inDraw := rfl
@[simp] theorem startCommand_delay (v : Word) : (startCommand v s).delay = Config.latency s.draws := rfl
@[simp] theorem startCommand_script (v : Word) : (startCommand v s).script = s.script := rfl
@[simp] theorem startCommand_reply (v : Word) : (startCommand v s).reply = s.reply := rfl

/-! `writeInLen` -/

@[simp] theorem writeInLen_cfg (v : Word) : (writeInLen v s).cfg = s.cfg := rfl
@[simp] theorem writeInLen_phase (v : Word) : (writeInLen v s).phase = s.phase := rfl
@[simp] theorem writeInLen_cmd (v : Word) : (writeInLen v s).cmd = s.cmd := rfl
@[simp] theorem writeInLen_done (v : Word) : (writeInLen v s).done = s.done := rfl
@[simp] theorem writeInLen_err (v : Word) : (writeInLen v s).err = s.err := rfl
@[simp] theorem writeInLen_errCode (v : Word) : (writeInLen v s).errCode = s.errCode := rfl
@[simp] theorem writeInLen_errInfo (v : Word) : (writeInLen v s).errInfo = s.errInfo := rfl
@[simp] theorem writeInLen_inLen (v : Word) : (writeInLen v s).inLen = v.extractLsb' 0 16 := rfl
@[simp] theorem writeInLen_outLen (v : Word) : (writeInLen v s).outLen = s.outLen := rfl
@[simp] theorem writeInLen_period (v : Word) : (writeInLen v s).period = s.period := rfl
@[simp] theorem writeInLen_t (v : Word) : (writeInLen v s).t = s.t := rfl
@[simp] theorem writeInLen_ctr (v : Word) : (writeInLen v s).ctr = s.ctr := rfl
@[simp] theorem writeInLen_val (v : Word) : (writeInLen v s).val = s.val := rfl
@[simp] theorem writeInLen_code (v : Word) : (writeInLen v s).code = s.code := rfl
@[simp] theorem writeInLen_inBuf (v : Word) : (writeInLen v s).inBuf = s.inBuf := rfl
@[simp] theorem writeInLen_outBuf (v : Word) : (writeInLen v s).outBuf = s.outBuf := rfl
@[simp] theorem writeInLen_faults (v : Word) : (writeInLen v s).faults = s.faults := rfl
@[simp] theorem writeInLen_draws (v : Word) : (writeInLen v s).draws = s.draws := rfl
@[simp] theorem writeInLen_inDraw (v : Word) : (writeInLen v s).inDraw = s.inDraw := rfl
@[simp] theorem writeInLen_delay (v : Word) : (writeInLen v s).delay = s.delay := rfl
@[simp] theorem writeInLen_script (v : Word) : (writeInLen v s).script = s.script := rfl
@[simp] theorem writeInLen_reply (v : Word) : (writeInLen v s).reply = s.reply := rfl

/-! `writePeriod` -/

@[simp] theorem writePeriod_cfg (v : Word) : (writePeriod v s).cfg = s.cfg := rfl
@[simp] theorem writePeriod_phase (v : Word) : (writePeriod v s).phase = s.phase := rfl
@[simp] theorem writePeriod_cmd (v : Word) : (writePeriod v s).cmd = s.cmd := rfl
@[simp] theorem writePeriod_done (v : Word) : (writePeriod v s).done = s.done := rfl
@[simp] theorem writePeriod_err (v : Word) : (writePeriod v s).err = s.err := rfl
@[simp] theorem writePeriod_errCode (v : Word) : (writePeriod v s).errCode = s.errCode := rfl
@[simp] theorem writePeriod_errInfo (v : Word) : (writePeriod v s).errInfo = s.errInfo := rfl
@[simp] theorem writePeriod_inLen (v : Word) : (writePeriod v s).inLen = s.inLen := rfl
@[simp] theorem writePeriod_outLen (v : Word) : (writePeriod v s).outLen = s.outLen := rfl
@[simp] theorem writePeriod_period (v : Word) : (writePeriod v s).period = v := rfl
@[simp] theorem writePeriod_t (v : Word) : (writePeriod v s).t = s.t := rfl
@[simp] theorem writePeriod_ctr (v : Word) : (writePeriod v s).ctr = s.ctr := rfl
@[simp] theorem writePeriod_val (v : Word) : (writePeriod v s).val = s.val := rfl
@[simp] theorem writePeriod_code (v : Word) : (writePeriod v s).code = s.code := rfl
@[simp] theorem writePeriod_inBuf (v : Word) : (writePeriod v s).inBuf = s.inBuf := rfl
@[simp] theorem writePeriod_outBuf (v : Word) : (writePeriod v s).outBuf = s.outBuf := rfl
@[simp] theorem writePeriod_faults (v : Word) : (writePeriod v s).faults = s.faults := rfl
@[simp] theorem writePeriod_draws (v : Word) : (writePeriod v s).draws = s.draws := rfl
@[simp] theorem writePeriod_inDraw (v : Word) : (writePeriod v s).inDraw = s.inDraw := rfl
@[simp] theorem writePeriod_delay (v : Word) : (writePeriod v s).delay = s.delay := rfl
@[simp] theorem writePeriod_script (v : Word) : (writePeriod v s).script = s.script := rfl
@[simp] theorem writePeriod_reply (v : Word) : (writePeriod v s).reply = s.reply := rfl

/-! `writeTLo` -/

@[simp] theorem writeTLo_cfg (v : Word) : (writeTLo v s).cfg = s.cfg := rfl
@[simp] theorem writeTLo_phase (v : Word) : (writeTLo v s).phase = s.phase := rfl
@[simp] theorem writeTLo_cmd (v : Word) : (writeTLo v s).cmd = s.cmd := rfl
@[simp] theorem writeTLo_done (v : Word) : (writeTLo v s).done = s.done := rfl
@[simp] theorem writeTLo_err (v : Word) : (writeTLo v s).err = s.err := rfl
@[simp] theorem writeTLo_errCode (v : Word) : (writeTLo v s).errCode = s.errCode := rfl
@[simp] theorem writeTLo_errInfo (v : Word) : (writeTLo v s).errInfo = s.errInfo := rfl
@[simp] theorem writeTLo_inLen (v : Word) : (writeTLo v s).inLen = s.inLen := rfl
@[simp] theorem writeTLo_outLen (v : Word) : (writeTLo v s).outLen = s.outLen := rfl
@[simp] theorem writeTLo_period (v : Word) : (writeTLo v s).period = s.period := rfl
@[simp] theorem writeTLo_t (v : Word) : (writeTLo v s).t = s.t.extractLsb' 32 32 ++ v := rfl
@[simp] theorem writeTLo_ctr (v : Word) : (writeTLo v s).ctr = s.ctr := rfl
@[simp] theorem writeTLo_val (v : Word) : (writeTLo v s).val = s.val := rfl
@[simp] theorem writeTLo_code (v : Word) : (writeTLo v s).code = s.code := rfl
@[simp] theorem writeTLo_inBuf (v : Word) : (writeTLo v s).inBuf = s.inBuf := rfl
@[simp] theorem writeTLo_outBuf (v : Word) : (writeTLo v s).outBuf = s.outBuf := rfl
@[simp] theorem writeTLo_faults (v : Word) : (writeTLo v s).faults = s.faults := rfl
@[simp] theorem writeTLo_draws (v : Word) : (writeTLo v s).draws = s.draws := rfl
@[simp] theorem writeTLo_inDraw (v : Word) : (writeTLo v s).inDraw = s.inDraw := rfl
@[simp] theorem writeTLo_delay (v : Word) : (writeTLo v s).delay = s.delay := rfl
@[simp] theorem writeTLo_script (v : Word) : (writeTLo v s).script = s.script := rfl
@[simp] theorem writeTLo_reply (v : Word) : (writeTLo v s).reply = s.reply := rfl

/-! `writeTHi` -/

@[simp] theorem writeTHi_cfg (v : Word) : (writeTHi v s).cfg = s.cfg := rfl
@[simp] theorem writeTHi_phase (v : Word) : (writeTHi v s).phase = s.phase := rfl
@[simp] theorem writeTHi_cmd (v : Word) : (writeTHi v s).cmd = s.cmd := rfl
@[simp] theorem writeTHi_done (v : Word) : (writeTHi v s).done = s.done := rfl
@[simp] theorem writeTHi_err (v : Word) : (writeTHi v s).err = s.err := rfl
@[simp] theorem writeTHi_errCode (v : Word) : (writeTHi v s).errCode = s.errCode := rfl
@[simp] theorem writeTHi_errInfo (v : Word) : (writeTHi v s).errInfo = s.errInfo := rfl
@[simp] theorem writeTHi_inLen (v : Word) : (writeTHi v s).inLen = s.inLen := rfl
@[simp] theorem writeTHi_outLen (v : Word) : (writeTHi v s).outLen = s.outLen := rfl
@[simp] theorem writeTHi_period (v : Word) : (writeTHi v s).period = s.period := rfl
@[simp] theorem writeTHi_t (v : Word) : (writeTHi v s).t = v ++ s.t.extractLsb' 0 32 := rfl
@[simp] theorem writeTHi_ctr (v : Word) : (writeTHi v s).ctr = s.ctr := rfl
@[simp] theorem writeTHi_val (v : Word) : (writeTHi v s).val = s.val := rfl
@[simp] theorem writeTHi_code (v : Word) : (writeTHi v s).code = s.code := rfl
@[simp] theorem writeTHi_inBuf (v : Word) : (writeTHi v s).inBuf = s.inBuf := rfl
@[simp] theorem writeTHi_outBuf (v : Word) : (writeTHi v s).outBuf = s.outBuf := rfl
@[simp] theorem writeTHi_faults (v : Word) : (writeTHi v s).faults = s.faults := rfl
@[simp] theorem writeTHi_draws (v : Word) : (writeTHi v s).draws = s.draws := rfl
@[simp] theorem writeTHi_inDraw (v : Word) : (writeTHi v s).inDraw = s.inDraw := rfl
@[simp] theorem writeTHi_delay (v : Word) : (writeTHi v s).delay = s.delay := rfl
@[simp] theorem writeTHi_script (v : Word) : (writeTHi v s).script = s.script := rfl
@[simp] theorem writeTHi_reply (v : Word) : (writeTHi v s).reply = s.reply := rfl

/-! `writeCtrLo` -/

@[simp] theorem writeCtrLo_cfg (v : Word) : (writeCtrLo v s).cfg = s.cfg := rfl
@[simp] theorem writeCtrLo_phase (v : Word) : (writeCtrLo v s).phase = s.phase := rfl
@[simp] theorem writeCtrLo_cmd (v : Word) : (writeCtrLo v s).cmd = s.cmd := rfl
@[simp] theorem writeCtrLo_done (v : Word) : (writeCtrLo v s).done = s.done := rfl
@[simp] theorem writeCtrLo_err (v : Word) : (writeCtrLo v s).err = s.err := rfl
@[simp] theorem writeCtrLo_errCode (v : Word) : (writeCtrLo v s).errCode = s.errCode := rfl
@[simp] theorem writeCtrLo_errInfo (v : Word) : (writeCtrLo v s).errInfo = s.errInfo := rfl
@[simp] theorem writeCtrLo_inLen (v : Word) : (writeCtrLo v s).inLen = s.inLen := rfl
@[simp] theorem writeCtrLo_outLen (v : Word) : (writeCtrLo v s).outLen = s.outLen := rfl
@[simp] theorem writeCtrLo_period (v : Word) : (writeCtrLo v s).period = s.period := rfl
@[simp] theorem writeCtrLo_t (v : Word) : (writeCtrLo v s).t = s.t := rfl
@[simp] theorem writeCtrLo_ctr (v : Word) : (writeCtrLo v s).ctr = s.ctr.extractLsb' 32 32 ++ v := rfl
@[simp] theorem writeCtrLo_val (v : Word) : (writeCtrLo v s).val = s.val := rfl
@[simp] theorem writeCtrLo_code (v : Word) : (writeCtrLo v s).code = s.code := rfl
@[simp] theorem writeCtrLo_inBuf (v : Word) : (writeCtrLo v s).inBuf = s.inBuf := rfl
@[simp] theorem writeCtrLo_outBuf (v : Word) : (writeCtrLo v s).outBuf = s.outBuf := rfl
@[simp] theorem writeCtrLo_faults (v : Word) : (writeCtrLo v s).faults = s.faults := rfl
@[simp] theorem writeCtrLo_draws (v : Word) : (writeCtrLo v s).draws = s.draws := rfl
@[simp] theorem writeCtrLo_inDraw (v : Word) : (writeCtrLo v s).inDraw = s.inDraw := rfl
@[simp] theorem writeCtrLo_delay (v : Word) : (writeCtrLo v s).delay = s.delay := rfl
@[simp] theorem writeCtrLo_script (v : Word) : (writeCtrLo v s).script = s.script := rfl
@[simp] theorem writeCtrLo_reply (v : Word) : (writeCtrLo v s).reply = s.reply := rfl

/-! `writeCtrHi` -/

@[simp] theorem writeCtrHi_cfg (v : Word) : (writeCtrHi v s).cfg = s.cfg := rfl
@[simp] theorem writeCtrHi_phase (v : Word) : (writeCtrHi v s).phase = s.phase := rfl
@[simp] theorem writeCtrHi_cmd (v : Word) : (writeCtrHi v s).cmd = s.cmd := rfl
@[simp] theorem writeCtrHi_done (v : Word) : (writeCtrHi v s).done = s.done := rfl
@[simp] theorem writeCtrHi_err (v : Word) : (writeCtrHi v s).err = s.err := rfl
@[simp] theorem writeCtrHi_errCode (v : Word) : (writeCtrHi v s).errCode = s.errCode := rfl
@[simp] theorem writeCtrHi_errInfo (v : Word) : (writeCtrHi v s).errInfo = s.errInfo := rfl
@[simp] theorem writeCtrHi_inLen (v : Word) : (writeCtrHi v s).inLen = s.inLen := rfl
@[simp] theorem writeCtrHi_outLen (v : Word) : (writeCtrHi v s).outLen = s.outLen := rfl
@[simp] theorem writeCtrHi_period (v : Word) : (writeCtrHi v s).period = s.period := rfl
@[simp] theorem writeCtrHi_t (v : Word) : (writeCtrHi v s).t = s.t := rfl
@[simp] theorem writeCtrHi_ctr (v : Word) : (writeCtrHi v s).ctr = v ++ s.ctr.extractLsb' 0 32 := rfl
@[simp] theorem writeCtrHi_val (v : Word) : (writeCtrHi v s).val = s.val := rfl
@[simp] theorem writeCtrHi_code (v : Word) : (writeCtrHi v s).code = s.code := rfl
@[simp] theorem writeCtrHi_inBuf (v : Word) : (writeCtrHi v s).inBuf = s.inBuf := rfl
@[simp] theorem writeCtrHi_outBuf (v : Word) : (writeCtrHi v s).outBuf = s.outBuf := rfl
@[simp] theorem writeCtrHi_faults (v : Word) : (writeCtrHi v s).faults = s.faults := rfl
@[simp] theorem writeCtrHi_draws (v : Word) : (writeCtrHi v s).draws = s.draws := rfl
@[simp] theorem writeCtrHi_inDraw (v : Word) : (writeCtrHi v s).inDraw = s.inDraw := rfl
@[simp] theorem writeCtrHi_delay (v : Word) : (writeCtrHi v s).delay = s.delay := rfl
@[simp] theorem writeCtrHi_script (v : Word) : (writeCtrHi v s).script = s.script := rfl
@[simp] theorem writeCtrHi_reply (v : Word) : (writeCtrHi v s).reply = s.reply := rfl

/-! `writeInWord` -/

@[simp] theorem writeInWord_cfg (k : Nat) (v : Word) : (writeInWord k v s).cfg = s.cfg := rfl
@[simp] theorem writeInWord_phase (k : Nat) (v : Word) : (writeInWord k v s).phase = s.phase := rfl
@[simp] theorem writeInWord_cmd (k : Nat) (v : Word) : (writeInWord k v s).cmd = s.cmd := rfl
@[simp] theorem writeInWord_done (k : Nat) (v : Word) : (writeInWord k v s).done = s.done := rfl
@[simp] theorem writeInWord_err (k : Nat) (v : Word) : (writeInWord k v s).err = s.err := rfl
@[simp] theorem writeInWord_errCode (k : Nat) (v : Word) : (writeInWord k v s).errCode = s.errCode := rfl
@[simp] theorem writeInWord_errInfo (k : Nat) (v : Word) : (writeInWord k v s).errInfo = s.errInfo := rfl
@[simp] theorem writeInWord_inLen (k : Nat) (v : Word) : (writeInWord k v s).inLen = s.inLen := rfl
@[simp] theorem writeInWord_outLen (k : Nat) (v : Word) : (writeInWord k v s).outLen = s.outLen := rfl
@[simp] theorem writeInWord_period (k : Nat) (v : Word) : (writeInWord k v s).period = s.period := rfl
@[simp] theorem writeInWord_t (k : Nat) (v : Word) : (writeInWord k v s).t = s.t := rfl
@[simp] theorem writeInWord_ctr (k : Nat) (v : Word) : (writeInWord k v s).ctr = s.ctr := rfl
@[simp] theorem writeInWord_val (k : Nat) (v : Word) : (writeInWord k v s).val = s.val := rfl
@[simp] theorem writeInWord_code (k : Nat) (v : Word) : (writeInWord k v s).code = s.code := rfl
@[simp] theorem writeInWord_inBuf (k : Nat) (v : Word) : (writeInWord k v s).inBuf = s.inBuf.writeBytes (4 * k) (wordBytes v) := rfl
@[simp] theorem writeInWord_outBuf (k : Nat) (v : Word) : (writeInWord k v s).outBuf = s.outBuf := rfl
@[simp] theorem writeInWord_faults (k : Nat) (v : Word) : (writeInWord k v s).faults = s.faults := rfl
@[simp] theorem writeInWord_draws (k : Nat) (v : Word) : (writeInWord k v s).draws = s.draws := rfl
@[simp] theorem writeInWord_inDraw (k : Nat) (v : Word) : (writeInWord k v s).inDraw = s.inDraw := rfl
@[simp] theorem writeInWord_delay (k : Nat) (v : Word) : (writeInWord k v s).delay = s.delay := rfl
@[simp] theorem writeInWord_script (k : Nat) (v : Word) : (writeInWord k v s).script = s.script := rfl
@[simp] theorem writeInWord_reply (k : Nat) (v : Word) : (writeInWord k v s).reply = s.reply := rfl

/-! `recordFault` -/

@[simp] theorem recordFault_cfg (f : Fault) : (recordFault f s).cfg = s.cfg := rfl
@[simp] theorem recordFault_phase (f : Fault) : (recordFault f s).phase = s.phase := rfl
@[simp] theorem recordFault_cmd (f : Fault) : (recordFault f s).cmd = s.cmd := rfl
@[simp] theorem recordFault_done (f : Fault) : (recordFault f s).done = s.done := rfl
@[simp] theorem recordFault_err (f : Fault) : (recordFault f s).err = s.err := rfl
@[simp] theorem recordFault_errCode (f : Fault) : (recordFault f s).errCode = s.errCode := rfl
@[simp] theorem recordFault_errInfo (f : Fault) : (recordFault f s).errInfo = s.errInfo := rfl
@[simp] theorem recordFault_inLen (f : Fault) : (recordFault f s).inLen = s.inLen := rfl
@[simp] theorem recordFault_outLen (f : Fault) : (recordFault f s).outLen = s.outLen := rfl
@[simp] theorem recordFault_period (f : Fault) : (recordFault f s).period = s.period := rfl
@[simp] theorem recordFault_t (f : Fault) : (recordFault f s).t = s.t := rfl
@[simp] theorem recordFault_ctr (f : Fault) : (recordFault f s).ctr = s.ctr := rfl
@[simp] theorem recordFault_val (f : Fault) : (recordFault f s).val = s.val := rfl
@[simp] theorem recordFault_code (f : Fault) : (recordFault f s).code = s.code := rfl
@[simp] theorem recordFault_inBuf (f : Fault) : (recordFault f s).inBuf = s.inBuf := rfl
@[simp] theorem recordFault_outBuf (f : Fault) : (recordFault f s).outBuf = s.outBuf := rfl
@[simp] theorem recordFault_faults (f : Fault) : (recordFault f s).faults = if f ∈ s.faults then s.faults else f :: s.faults := rfl
@[simp] theorem recordFault_draws (f : Fault) : (recordFault f s).draws = s.draws := rfl
@[simp] theorem recordFault_inDraw (f : Fault) : (recordFault f s).inDraw = s.inDraw := rfl
@[simp] theorem recordFault_delay (f : Fault) : (recordFault f s).delay = s.delay := rfl
@[simp] theorem recordFault_script (f : Fault) : (recordFault f s).script = s.script := rfl
@[simp] theorem recordFault_reply (f : Fault) : (recordFault f s).reply = s.reply := rfl

/-! `setReply` -/

@[simp] theorem setReply_cfg (r : Reply) : (setReply r s).cfg = s.cfg := rfl
@[simp] theorem setReply_phase (r : Reply) : (setReply r s).phase = s.phase := rfl
@[simp] theorem setReply_cmd (r : Reply) : (setReply r s).cmd = s.cmd := rfl
@[simp] theorem setReply_done (r : Reply) : (setReply r s).done = s.done := rfl
@[simp] theorem setReply_err (r : Reply) : (setReply r s).err = s.err := rfl
@[simp] theorem setReply_errCode (r : Reply) : (setReply r s).errCode = s.errCode := rfl
@[simp] theorem setReply_errInfo (r : Reply) : (setReply r s).errInfo = s.errInfo := rfl
@[simp] theorem setReply_inLen (r : Reply) : (setReply r s).inLen = s.inLen := rfl
@[simp] theorem setReply_outLen (r : Reply) : (setReply r s).outLen = s.outLen := rfl
@[simp] theorem setReply_period (r : Reply) : (setReply r s).period = s.period := rfl
@[simp] theorem setReply_t (r : Reply) : (setReply r s).t = s.t := rfl
@[simp] theorem setReply_ctr (r : Reply) : (setReply r s).ctr = s.ctr := rfl
@[simp] theorem setReply_val (r : Reply) : (setReply r s).val = s.val := rfl
@[simp] theorem setReply_code (r : Reply) : (setReply r s).code = s.code := rfl
@[simp] theorem setReply_inBuf (r : Reply) : (setReply r s).inBuf = s.inBuf := rfl
@[simp] theorem setReply_outBuf (r : Reply) : (setReply r s).outBuf = s.outBuf := rfl
@[simp] theorem setReply_faults (r : Reply) : (setReply r s).faults = s.faults := rfl
@[simp] theorem setReply_draws (r : Reply) : (setReply r s).draws = s.draws := rfl
@[simp] theorem setReply_inDraw (r : Reply) : (setReply r s).inDraw = s.inDraw := rfl
@[simp] theorem setReply_delay (r : Reply) : (setReply r s).delay = s.delay := rfl
@[simp] theorem setReply_script (r : Reply) : (setReply r s).script = s.script := rfl
@[simp] theorem setReply_reply (r : Reply) : (setReply r s).reply = r := rfl

/-! `nextDraw` -/

@[simp] theorem nextDraw_cfg : (nextDraw s).cfg = s.cfg := rfl
@[simp] theorem nextDraw_phase : (nextDraw s).phase = s.phase := rfl
@[simp] theorem nextDraw_cmd : (nextDraw s).cmd = s.cmd := rfl
@[simp] theorem nextDraw_done : (nextDraw s).done = s.done := rfl
@[simp] theorem nextDraw_err : (nextDraw s).err = s.err := rfl
@[simp] theorem nextDraw_errCode : (nextDraw s).errCode = s.errCode := rfl
@[simp] theorem nextDraw_errInfo : (nextDraw s).errInfo = s.errInfo := rfl
@[simp] theorem nextDraw_inLen : (nextDraw s).inLen = s.inLen := rfl
@[simp] theorem nextDraw_outLen : (nextDraw s).outLen = s.outLen := rfl
@[simp] theorem nextDraw_period : (nextDraw s).period = s.period := rfl
@[simp] theorem nextDraw_t : (nextDraw s).t = s.t := rfl
@[simp] theorem nextDraw_ctr : (nextDraw s).ctr = s.ctr := rfl
@[simp] theorem nextDraw_val : (nextDraw s).val = s.val := rfl
@[simp] theorem nextDraw_code : (nextDraw s).code = s.code := rfl
@[simp] theorem nextDraw_inBuf : (nextDraw s).inBuf = s.inBuf := rfl
@[simp] theorem nextDraw_outBuf : (nextDraw s).outBuf = s.outBuf := rfl
@[simp] theorem nextDraw_faults : (nextDraw s).faults = s.faults := rfl
@[simp] theorem nextDraw_draws : (nextDraw s).draws = s.draws + 1 := rfl
@[simp] theorem nextDraw_inDraw : (nextDraw s).inDraw = s.inDraw := rfl
@[simp] theorem nextDraw_delay : (nextDraw s).delay = s.delay := rfl
@[simp] theorem nextDraw_script : (nextDraw s).script = s.script := rfl
@[simp] theorem nextDraw_reply : (nextDraw s).reply = s.reply := rfl

/-! `setScript` -/

@[simp] theorem setScript_cfg (ops : List HostOp) : (setScript ops s).cfg = s.cfg := rfl
@[simp] theorem setScript_phase (ops : List HostOp) : (setScript ops s).phase = s.phase := rfl
@[simp] theorem setScript_cmd (ops : List HostOp) : (setScript ops s).cmd = s.cmd := rfl
@[simp] theorem setScript_done (ops : List HostOp) : (setScript ops s).done = s.done := rfl
@[simp] theorem setScript_err (ops : List HostOp) : (setScript ops s).err = s.err := rfl
@[simp] theorem setScript_errCode (ops : List HostOp) : (setScript ops s).errCode = s.errCode := rfl
@[simp] theorem setScript_errInfo (ops : List HostOp) : (setScript ops s).errInfo = s.errInfo := rfl
@[simp] theorem setScript_inLen (ops : List HostOp) : (setScript ops s).inLen = s.inLen := rfl
@[simp] theorem setScript_outLen (ops : List HostOp) : (setScript ops s).outLen = s.outLen := rfl
@[simp] theorem setScript_period (ops : List HostOp) : (setScript ops s).period = s.period := rfl
@[simp] theorem setScript_t (ops : List HostOp) : (setScript ops s).t = s.t := rfl
@[simp] theorem setScript_ctr (ops : List HostOp) : (setScript ops s).ctr = s.ctr := rfl
@[simp] theorem setScript_val (ops : List HostOp) : (setScript ops s).val = s.val := rfl
@[simp] theorem setScript_code (ops : List HostOp) : (setScript ops s).code = s.code := rfl
@[simp] theorem setScript_inBuf (ops : List HostOp) : (setScript ops s).inBuf = s.inBuf := rfl
@[simp] theorem setScript_outBuf (ops : List HostOp) : (setScript ops s).outBuf = s.outBuf := rfl
@[simp] theorem setScript_faults (ops : List HostOp) : (setScript ops s).faults = s.faults := rfl
@[simp] theorem setScript_draws (ops : List HostOp) : (setScript ops s).draws = s.draws := rfl
@[simp] theorem setScript_inDraw (ops : List HostOp) : (setScript ops s).inDraw = s.inDraw := rfl
@[simp] theorem setScript_delay (ops : List HostOp) : (setScript ops s).delay = s.delay := rfl
@[simp] theorem setScript_script (ops : List HostOp) : (setScript ops s).script = ops := rfl
@[simp] theorem setScript_reply (ops : List HostOp) : (setScript ops s).reply = s.reply := rfl

/-! `countDelay` -/

@[simp] theorem countDelay_cfg : (countDelay s).cfg = s.cfg := rfl
@[simp] theorem countDelay_phase : (countDelay s).phase = s.phase := rfl
@[simp] theorem countDelay_cmd : (countDelay s).cmd = s.cmd := rfl
@[simp] theorem countDelay_done : (countDelay s).done = s.done := rfl
@[simp] theorem countDelay_err : (countDelay s).err = s.err := rfl
@[simp] theorem countDelay_errCode : (countDelay s).errCode = s.errCode := rfl
@[simp] theorem countDelay_errInfo : (countDelay s).errInfo = s.errInfo := rfl
@[simp] theorem countDelay_inLen : (countDelay s).inLen = s.inLen := rfl
@[simp] theorem countDelay_outLen : (countDelay s).outLen = s.outLen := rfl
@[simp] theorem countDelay_period : (countDelay s).period = s.period := rfl
@[simp] theorem countDelay_t : (countDelay s).t = s.t := rfl
@[simp] theorem countDelay_ctr : (countDelay s).ctr = s.ctr := rfl
@[simp] theorem countDelay_val : (countDelay s).val = s.val := rfl
@[simp] theorem countDelay_code : (countDelay s).code = s.code := rfl
@[simp] theorem countDelay_inBuf : (countDelay s).inBuf = s.inBuf := rfl
@[simp] theorem countDelay_outBuf : (countDelay s).outBuf = s.outBuf := rfl
@[simp] theorem countDelay_faults : (countDelay s).faults = s.faults := rfl
@[simp] theorem countDelay_draws : (countDelay s).draws = s.draws := rfl
@[simp] theorem countDelay_inDraw : (countDelay s).inDraw = s.inDraw := rfl
@[simp] theorem countDelay_delay : (countDelay s).delay = s.delay - 1 := rfl
@[simp] theorem countDelay_script : (countDelay s).script = s.script := rfl
@[simp] theorem countDelay_reply : (countDelay s).reply = s.reply := rfl

/-! `placeCommand` -/

@[simp] theorem placeCommand_cfg (v : Word) : (placeCommand v s).cfg = s.cfg := rfl
@[simp] theorem placeCommand_phase (v : Word) : (placeCommand v s).phase = .busy v := rfl
@[simp] theorem placeCommand_cmd (v : Word) : (placeCommand v s).cmd = v := rfl
@[simp] theorem placeCommand_done (v : Word) : (placeCommand v s).done = false := rfl
@[simp] theorem placeCommand_err (v : Word) : (placeCommand v s).err = false := rfl
@[simp] theorem placeCommand_errCode (v : Word) : (placeCommand v s).errCode = s.errCode := rfl
@[simp] theorem placeCommand_errInfo (v : Word) : (placeCommand v s).errInfo = s.errInfo := rfl
@[simp] theorem placeCommand_inLen (v : Word) : (placeCommand v s).inLen = s.inLen := rfl
@[simp] theorem placeCommand_outLen (v : Word) : (placeCommand v s).outLen = s.outLen := rfl
@[simp] theorem placeCommand_period (v : Word) : (placeCommand v s).period = s.period := rfl
@[simp] theorem placeCommand_t (v : Word) : (placeCommand v s).t = s.t := rfl
@[simp] theorem placeCommand_ctr (v : Word) : (placeCommand v s).ctr = s.ctr := rfl
@[simp] theorem placeCommand_val (v : Word) : (placeCommand v s).val = s.val := rfl
@[simp] theorem placeCommand_code (v : Word) : (placeCommand v s).code = s.code := rfl
@[simp] theorem placeCommand_inBuf (v : Word) : (placeCommand v s).inBuf = s.inBuf := rfl
@[simp] theorem placeCommand_outBuf (v : Word) : (placeCommand v s).outBuf = s.outBuf := rfl
@[simp] theorem placeCommand_faults (v : Word) : (placeCommand v s).faults = [] := rfl
@[simp] theorem placeCommand_draws (v : Word) : (placeCommand v s).draws = s.draws := rfl
@[simp] theorem placeCommand_inDraw (v : Word) : (placeCommand v s).inDraw = s.inDraw := rfl
@[simp] theorem placeCommand_delay (v : Word) : (placeCommand v s).delay = 0 := rfl
@[simp] theorem placeCommand_script (v : Word) : (placeCommand v s).script = s.script := rfl
@[simp] theorem placeCommand_reply (v : Word) : (placeCommand v s).reply = s.reply := rfl

/-! `hostReset` -/

@[simp] theorem hostReset_cfg : (hostReset s).cfg = s.cfg := rfl
@[simp] theorem hostReset_phase : (hostReset s).phase = .idle := rfl
@[simp] theorem hostReset_cmd : (hostReset s).cmd = 0#32 := rfl
@[simp] theorem hostReset_done : (hostReset s).done = false := rfl
@[simp] theorem hostReset_err : (hostReset s).err = false := rfl
@[simp] theorem hostReset_errCode : (hostReset s).errCode = 0#4 := rfl
@[simp] theorem hostReset_errInfo : (hostReset s).errInfo = 0#16 := rfl
@[simp] theorem hostReset_inLen : (hostReset s).inLen = 0#16 := rfl
@[simp] theorem hostReset_outLen : (hostReset s).outLen = 0#16 := rfl
@[simp] theorem hostReset_period : (hostReset s).period = 30#32 := rfl
@[simp] theorem hostReset_t : (hostReset s).t = 0#64 := rfl
@[simp] theorem hostReset_ctr : (hostReset s).ctr = 0#64 := rfl
@[simp] theorem hostReset_val : (hostReset s).val = 0#32 := rfl
@[simp] theorem hostReset_code : (hostReset s).code = 0#32 := rfl
@[simp] theorem hostReset_inBuf : (hostReset s).inBuf = [] := rfl
@[simp] theorem hostReset_outBuf : (hostReset s).outBuf = [] := rfl
@[simp] theorem hostReset_faults : (hostReset s).faults = s.faults := rfl
@[simp] theorem hostReset_draws : (hostReset s).draws = s.draws + 1 := rfl
@[simp] theorem hostReset_inDraw : (hostReset s).inDraw = s.draws := rfl
@[simp] theorem hostReset_delay : (hostReset s).delay = 0 := rfl
@[simp] theorem hostReset_script : (hostReset s).script = s.script := rfl
@[simp] theorem hostReset_reply : (hostReset s).reply = .noData := rfl

end Sys2Proof.Machine
end

