-- ==== Sys2Proof/Laws/Bus.lean ====
section
/-! SUPPORT. What a host event can do, said once, and the address map. -/

namespace Sys2Proof.Machine

namespace Laws

variable {s t : State} {c : Config} {off : Offset} {width : Nat} {v : Word}

/-! ### The address map -/

theorem windowOffset_base (c : Config) {o : Nat} (h : o < 4096) :
    windowOffset c (c.base + o) = some (BitVec.ofNat 12 o) := by
  simp only [windowOffset]
  rw [if_pos (by omega), Nat.add_sub_cancel_left]

theorem windowOffset_eq_some (h : windowOffset c a = some off) : c.base ≤ a ∧ a = c.base + off.toNat := by
  simp only [windowOffset] at h
  split at h
  · next hr =>
    cases h
    refine ⟨hr.1, ?_⟩
    rw [BitVec.toNat_ofNat, Nat.mod_eq_of_lt (by omega)]
    omega
  · cases h

theorem windowOffset_outside (h : a < c.base ∨ c.base + 4096 ≤ a) : windowOffset c a = none := by
  simp only [windowOffset]
  rw [if_neg (by omega)]

/-- An IN word lies at an aligned offset below IN_CAP (R38). -/
theorem locate_inWord {k : Nat} (h : locate c off = some (.inWord k)) :
    off.toNat = 0x400 + 4 * k ∧ 4 * k < c.inCap ∧ 4 * k < 0x400 := by
  simp only [locate] at h
  split at h
  · cases h
  · split at h
    · simp at h
    · split at h
      · split at h
        · simp only [Option.some.injEq, Loc.inWord.injEq] at h
          omega
        · cases h
      · split at h <;> simp at h

/-- An OUT word lies at an aligned offset below OUT_CAP (R38). -/
theorem locate_outWord {k : Nat} (h : locate c off = some (.outWord k)) :
    off.toNat = 0x800 + 4 * k ∧ 4 * k < c.outCap := by
  simp only [locate] at h
  split at h
  · cases h
  · split at h
    · simp at h
    · split at h
      · split at h <;> simp at h
      · split at h
        · simp only [Option.some.injEq, Loc.outWord.injEq] at h
          omega
        · cases h

theorem locate_of_inWord {k : Nat} (h : 4 * k < c.inCap) (h' : 4 * k < 0x400) :
    locate c (BitVec.ofNat 12 (0x400 + 4 * k)) = some (.inWord k) := by
  have hn : (BitVec.ofNat 12 (0x400 + 4 * k)).toNat = 0x400 + 4 * k := by
    rw [BitVec.toNat_ofNat, Nat.mod_eq_of_lt (by omega)]
  simp only [locate, hn]
  rw [if_neg (by omega), if_neg (by omega), if_pos (by omega), if_pos (by omega)]
  congr 2
  omega

theorem locate_of_outWord {k : Nat} (h : 4 * k < c.outCap) (h' : 4 * k < 0x800) :
    locate c (BitVec.ofNat 12 (0x800 + 4 * k)) = some (.outWord k) := by
  have hn : (BitVec.ofNat 12 (0x800 + 4 * k)).toNat = 0x800 + 4 * k := by
    rw [BitVec.toNat_ofNat, Nat.mod_eq_of_lt (by omega)]
  simp only [locate, hn]
  rw [if_neg (by omega), if_neg (by omega), if_neg (by omega), if_pos (by omega)]
  congr 2
  omega

/-- The register offsets do not depend on the parameters (R16). -/
theorem locate_register (c : Config) (off : Offset) (h : off.toNat < 0x400) (ha : off.toNat % 4 = 0) :
    locate c off = (registerMap.lookup off.toNat).map .reg := by
  simp only [locate]
  rw [if_neg (by omega), if_pos h]

/-! ### Phases -/

@[simp] theorem isBusy_of_idle (h : s.phase = .idle) : s.isBusy = false := by simp [State.isBusy, h]

@[simp] theorem isBusy_of_busy {w : Word} (h : s.phase = .busy w) : s.isBusy = true := by simp [State.isBusy, h]

theorem isBusy_eq_false : s.isBusy = false ↔ s.phase = .idle := by
  cases h : s.phase <;> simp [State.isBusy, h]

/-! ### Host events -/

/-- A read is refused, or answers a word and changes nothing but the reply and the free-value counter. -/
theorem hostRead_cases (off : Offset) (width : Nat) (s : State) :
    (hostRead off width s = refuseAccess off s ∧ (width ≠ 4 ∨ locate s.cfg off = none)) ∨
    ∃ l, width = 4 ∧ locate s.cfg off = some l ∧ hostRead off width s = setReply (.data (readLoc s l)) (nextDraw s) := by
  simp only [hostRead]
  split
  · next h => exact .inl ⟨rfl, .inl h⟩
  · next h =>
    cases hl : locate s.cfg off with
    | none => exact .inl ⟨rfl, .inr rfl⟩
    | some l => exact .inr ⟨l, not_not.mp h, rfl, rfl⟩

theorem hostRead_permitted {l : Loc} (h : locate s.cfg off = some l) :
    hostRead off 4 s = setReply (.data (readLoc s l)) (nextDraw s) := by
  simp [hostRead, h]

/-- A write while idle is refused, or writes its location. -/
theorem hostWrite_next (h : hostWrite off width v s = .next t) :
    s.phase = .idle ∧
      (t = refuseAccess off s ∨
       ∃ l s', width = 4 ∧ locate s.cfg off = some l ∧ writeLoc l v s = some s' ∧ t = setReply .noData s') := by
  simp only [hostWrite] at h
  split at h
  · cases h
  · next hb =>
    refine ⟨isBusy_eq_false.mp (by simpa using hb), ?_⟩
    split at h
    · simp only [Host.Outcome.next.injEq] at h
      exact .inl h.symm
    · next hw =>
      cases hl : locate s.cfg off with
      | none =>
        simp only [hl, Option.bind_none, Host.Outcome.next.injEq] at h
        exact .inl h.symm
      | some l =>
        cases hs : writeLoc l v s with
        | none =>
          simp only [hl, Option.bind_some, hs, Host.Outcome.next.injEq] at h
          exact .inl h.symm
        | some s' =>
          simp only [hl, Option.bind_some, hs, Host.Outcome.next.injEq] at h
          exact .inr ⟨l, s', not_not.mp hw, rfl, hs, h.symm⟩

theorem hostWrite_busy {w : Word} (h : s.phase = .busy w) :
    hostWrite off width v s = .fault (.hostWriteWhileBusy off) := by
  simp [hostWrite, isBusy_of_busy h]

theorem hostWrite_permitted {l : Loc} {s' : State} (h : s.phase = .idle) (hl : locate s.cfg off = some l)
    (hw : writeLoc l v s = some s') : hostWrite off 4 v s = .next (setReply .noData s') := by
  simp [hostWrite, isBusy_of_idle h, hl, hw]

/-- Every way a permitted write changes the state. -/
theorem writeLoc_some {l : Loc} {s' : State} (h : writeLoc l v s = some s') :
    (l = .reg .cmd ∧ s' = startCommand v s) ∨ (l = .reg .inLen ∧ s' = writeInLen v s) ∨
    (l = .reg .period ∧ s' = writePeriod v s) ∨ (l = .reg .tLo ∧ s' = writeTLo v s) ∨
    (l = .reg .tHi ∧ s' = writeTHi v s) ∨ (l = .reg .ctrLo ∧ s' = writeCtrLo v s) ∨
    (l = .reg .ctrHi ∧ s' = writeCtrHi v s) ∨ (l = .reg .val ∧ s' = writeVal v s) ∨
    (l = .reg .code ∧ s' = writeCode v s) ∨ ∃ k, l = .inWord k ∧ s' = writeInWord k v s := by
  cases l with
  | reg r => cases r <;> simp_all [writeLoc, writeReg, eq_comm]
  | inWord k => simp_all [writeLoc, eq_comm]
  | outWord k => simp [writeLoc] at h

/-- POLL reads STATUS; it stays in the script exactly while a command is in progress. -/
theorem hostPoll_eq (s : State) :
    hostPoll s =
      if s.isBusy then setScript (.poll :: s.script) (setReply (.data (statusWord s)) (nextDraw s))
      else setReply (.data (statusWord s)) (nextDraw s) := by
  have hl : locate s.cfg 0x008#12 = some (.reg .status) := by
    rw [locate_register _ _ (by decide) (by decide)]
    rfl
  have hr : readLoc s (.reg .status) = statusWord s := by
    simp only [readLoc, busyRead, idleRead, regWord, ite_self]
  simp only [hostPoll, hostRead_permitted hl, hr]
  rfl

/-- Every next state of a host event: a reply alone (outside the window), a refusal, a read, a write, a poll or a
reset. -/
theorem hostStep_next {op : HostOp} (h : hostStep op s = .next t) :
    t = setReply .noData s ∨
    (∃ off, t = refuseAccess off s) ∨
    (∃ l, t = setReply (.data (readLoc s l)) (nextDraw s)) ∨
    (s.phase = .idle ∧ ∃ addr v off l s', op = .write addr 4 v ∧ windowOffset s.cfg addr = some off ∧
      locate s.cfg off = some l ∧ writeLoc l v s = some s' ∧ t = setReply .noData s') ∨
    (op = .poll ∧ t = hostPoll s) ∨
    (op = .reset ∧ t = hostReset s) := by
  cases op with
  | read addr width =>
    simp only [hostStep] at h
    cases ho : windowOffset s.cfg addr with
    | none =>
      simp only [ho, Host.Outcome.next.injEq] at h
      exact .inl h.symm
    | some off =>
      simp only [ho, Host.Outcome.next.injEq] at h
      rcases hostRead_cases off width s with ⟨hr, -⟩ | ⟨l, -, -, hr⟩
      · exact .inr (.inl ⟨off, by rw [← h, hr]⟩)
      · exact .inr (.inr (.inl ⟨l, by rw [← h, hr]⟩))
  | write addr width v =>
    simp only [hostStep] at h
    cases ho : windowOffset s.cfg addr with
    | none =>
      simp only [ho, Host.Outcome.next.injEq] at h
      exact .inl h.symm
    | some off =>
      simp only [ho] at h
      obtain ⟨hi, ht | ⟨l, s', rfl, hl, hw, ht⟩⟩ := hostWrite_next h
      · exact .inr (.inl ⟨off, ht⟩)
      · exact .inr (.inr (.inr (.inl ⟨hi, addr, v, off, l, s', rfl, ho, hl, hw, ht⟩)))
  | poll =>
    simp only [hostStep, Host.Outcome.next.injEq] at h
    exact .inr (.inr (.inr (.inr (.inl ⟨rfl, h.symm⟩))))
  | reset =>
    simp only [hostStep, Host.Outcome.next.injEq] at h
    exact .inr (.inr (.inr (.inr (.inr ⟨rfl, h.symm⟩))))

/-! ### Steps -/

/-- Everything a step that answers a next state can be: Complete, a host event while a command is in progress, a host
event while idle, or nothing. No fault is recorded before it. -/
theorem step_cases (h : step s = .next t) :
    s.faults = [] ∧
      ((∃ w, s.phase = .busy w ∧ (s.delay = 0 ∨ s.script = []) ∧ complete w s = .next t) ∨
       (∃ w op rest, s.phase = .busy w ∧ s.script = op :: rest ∧ s.delay ≠ 0 ∧
          hostStep op (countDelay (setScript rest s)) = .next t) ∨
       (∃ op rest, s.phase = .idle ∧ s.script = op :: rest ∧ hostStep op (setScript rest s) = .next t) ∨
       (s.phase = .idle ∧ s.script = [] ∧ t = s)) := by
  simp only [step, advance] at h
  split at h
  · cases h
  · next hf =>
    refine ⟨hf, ?_⟩
    split at h
    · next w hp hs => exact .inl ⟨w, hp, .inr hs, h⟩
    · next w op rest hp hs =>
      split at h
      · next hd => exact .inl ⟨w, hp, .inl hd, h⟩
      · next hd => exact .inr (.inl ⟨w, op, rest, hp, hs, hd, h⟩)
    · next op rest hp hs => exact .inr (.inr (.inl ⟨op, rest, hp, hs, h⟩))
    · next hp hs =>
      cases h
      exact .inr (.inr (.inr ⟨hp, hs, rfl⟩))

/-- A step on a state with a recorded fault answers that fault (R92). -/
theorem step_of_fault {f : Fault} {fs : List Fault} (h : s.faults = f :: fs) : step s = .fault f := by
  simp [step, advance, h]

/-- Complete is taken when the delay has run out or the host has nothing left to do. -/
theorem step_complete {w : Word} (hf : s.faults = []) (hp : s.phase = .busy w) (hd : s.delay = 0 ∨ s.script = []) :
    step s = complete w s := by
  simp only [step, advance, hf, hp]
  cases hs : s.script with
  | nil => rfl
  | cons op rest =>
    rcases hd with hd | hd
    · simp [hd]
    · simp [hs] at hd

end Laws

end Sys2Proof.Machine
end

