-- ==== Sys2Proof/Laws/Codec.lean ====
section
/-! SUPPORT. The laws of the pure functions the commands compute with: lengths, the symbol scan, the pad run and the bit
streams. -/

namespace Sys2Proof.Machine

namespace Laws

/-! ### Lengths of results -/

@[simp] theorem encodeBlock_length (bs : List Byte) : (encodeBlock bs).length = 8 := by simp [encodeBlock]

@[simp] theorem encodeBytes_length (bs : List Byte) : (encodeBytes bs).length = encodedLength bs.length := by
  induction bs using encodeBytes.induct <;> simp_all [encodeBytes, encodedLength]
  omega

@[simp] theorem symBits_length (vs : List Sym) : (symBits vs).length = 5 * vs.length := by
  induction vs <;> simp_all [symBits]
  omega

@[simp] theorem packBits_length (bits : List Bool) : (packBits bits).length = bits.length / 8 := by
  induction bits using packBits.induct with
  | case1 _ _ _ _ _ _ _ _ rest ih => simp [packBits, ih]; omega
  | case2 bits h =>
    have hlen : bits.length < 8 := by
      by_contra hge
      match bits, hge with
      | b7 :: b6 :: b5 :: b4 :: b3 :: b2 :: b1 :: b0 :: rest, _ => exact h _ _ _ _ _ _ _ _ _ rfl
      | [], hge => simp at hge
      | [_], hge => simp at hge
      | [_, _], hge => simp at hge
      | [_, _, _], hge => simp at hge
      | [_, _, _, _], hge => simp at hge
      | [_, _, _, _, _], hge => simp at hge
      | [_, _, _, _, _, _], hge => simp at hge
      | [_, _, _, _, _, _, _], hge => simp at hge
    rw [packBits.eq_def]
    split
    · simp only [List.length_cons] at hlen
      omega
    · simp only [List.length_nil]
      omega

@[simp] theorem counterBytes_length (c : DWord) : (counterBytes c).length = 8 := by simp [counterBytes]

@[simp] theorem decimalChars_length (v d : Nat) : (decimalChars v d).length = d := by simp [decimalChars]

/-! ### The symbol scan (R69) -/

/-- The scan succeeds exactly when every character has a symbol value, and gives those values. -/
theorem symValues_eq_ok_iff (i : Nat) (cs : List Byte) (vs : List Sym) :
    symValues i cs = .ok vs ↔ cs.map (fun c => symVal (fold c)) = vs.map some := by
  induction cs generalizing i vs with
  | nil => cases vs <;> simp [symValues]
  | cons c cs ih =>
    simp only [symValues]
    cases hc : symVal (fold c) with
    | none => cases vs <;> simp [hc]
    | some v =>
      cases hr : symValues (i + 1) cs with
      | error j =>
        cases vs with
        | nil => simp
        | cons w ws =>
          have := ih (i + 1) ws
          rw [hr] at this
          simp only [reduceCtorEq, false_iff] at this
          simp [hc, this]
      | ok us =>
        have hus := (ih (i + 1) us).mp hr
        cases vs with
        | nil => simp
        | cons w ws =>
          simp only [Except.ok.injEq, List.cons.injEq, List.map_cons, hc, hus, Option.some.injEq]
          refine and_congr_right fun _ => ⟨fun h => by rw [h], fun h => ?_⟩
          exact (List.map_injective_iff.mpr (Option.some_injective _)) h

/-- The scan fails exactly at the first character that has no symbol value. -/
theorem symValues_eq_error_iff (i : Nat) (cs : List Byte) (j : Nat) :
    symValues i cs = .error j ↔
      ∃ k, j = i + k ∧ (cs[k]?.map fun c => symVal (fold c)) = some none ∧
        ∀ l, l < k → ∃ c, cs[l]? = some c ∧ (symVal (fold c)).isSome = true := by
  induction cs generalizing i with
  | nil => simp [symValues]
  | cons c cs ih =>
    simp only [symValues]
    cases hc : symVal (fold c) with
    | none =>
      simp only [Except.error.injEq]
      constructor
      · rintro rfl
        exact ⟨0, by simp, by simp [hc], by simp⟩
      · rintro ⟨k, rfl, -, hl⟩
        cases k with
        | zero => simp
        | succ k =>
          obtain ⟨c', h₁, h₂⟩ := hl 0 (by omega)
          simp only [List.getElem?_cons_zero, Option.some.injEq] at h₁
          subst h₁
          simp [hc] at h₂
    | some v =>
      have key : symValues (i + 1) cs = .error j ↔
          ∃ k, j = i + k ∧ ((c :: cs)[k]?.map fun c => symVal (fold c)) = some none ∧
            ∀ l, l < k → ∃ c', (c :: cs)[l]? = some c' ∧ (symVal (fold c')).isSome = true := by
        rw [ih]
        constructor
        · rintro ⟨k, rfl, hk, hl⟩
          refine ⟨k + 1, by omega, by simpa using hk, fun l hlk => ?_⟩
          cases l with
          | zero => exact ⟨c, by simp, by simp [hc]⟩
          | succ l => simpa using hl l (by omega)
        · rintro ⟨k, rfl, hk, hl⟩
          cases k with
          | zero => simp [hc] at hk
          | succ k =>
            exact ⟨k, by omega, by simpa using hk, fun l hlk => by simpa using hl (l + 1) (by omega)⟩
      rw [← key]
      cases symValues (i + 1) cs <;> simp

/-! ### The trailing pad run (R68) -/

theorem padRun_le (bs : List Byte) : padRun bs ≤ bs.length := by
  have := (List.takeWhile_prefix (p := (· == padChar)) (l := bs.reverse)).length_le
  simpa [padRun] using this

theorem padRun_concat (bs : List Byte) (c : Byte) :
    padRun (bs ++ [c]) = if c = padChar then padRun bs + 1 else 0 := by
  simp only [padRun, List.reverse_append, List.reverse_cons, List.reverse_nil, List.nil_append, List.cons_append,
    List.takeWhile_cons, beq_iff_eq]
  split <;> simp

/-- `p` is the length of the longest suffix made only of `=`. -/
abbrev IsRun (bs : List Byte) (p : Nat) : Prop :=
  p ≤ bs.length ∧ (∀ j, bs.length - p ≤ j → j < bs.length → bs[j]? = some padChar) ∧
    (p < bs.length → bs[bs.length - p - 1]? ≠ some padChar)

theorem padRun_isRun (bs : List Byte) : IsRun bs (padRun bs) := by
  induction bs using List.reverseRecOn with
  | nil => simp [padRun, IsRun]
  | append_singleton bs c ih =>
    obtain ⟨h₁, h₂, h₃⟩ := ih
    rw [padRun_concat]
    split
    · next hc =>
      refine ⟨by simp; omega, fun j hj₁ hj₂ => ?_, fun hlt => ?_⟩
      · simp only [List.length_append, List.length_singleton] at hj₁ hj₂
        rcases Nat.lt_or_ge j bs.length with hj | hj
        · rw [List.getElem?_append_left hj]
          exact h₂ j (by omega) hj
        · have : j = bs.length := by omega
          subst this
          simp [hc]
      · simp only [List.length_append, List.length_singleton] at hlt ⊢
        have : bs.length + 1 - (padRun bs + 1) - 1 = bs.length - padRun bs - 1 := by omega
        rw [this, List.getElem?_append_left (by omega)]
        exact h₃ (by omega)
    · next hc =>
      refine ⟨by simp, fun j hj₁ hj₂ => by omega, fun _ => ?_⟩
      simpa using hc

/-- The pad run is the only length with these properties (R68). -/
theorem padRun_eq_iff (bs : List Byte) (p : Nat) : padRun bs = p ↔ IsRun bs p := by
  constructor
  · rintro rfl; exact padRun_isRun bs
  · rintro ⟨h₁, h₂, h₃⟩
    obtain ⟨g₁, g₂, g₃⟩ := padRun_isRun bs
    rcases lt_trichotomy (padRun bs) p with h | h | h
    · exact absurd (h₂ (bs.length - padRun bs - 1) (by omega) (by omega)) (g₃ (by omega))
    · exact h
    · exact absurd (g₂ (bs.length - p - 1) (by omega) (by omega)) (h₃ (by omega))

/-! ### Bit streams (R9, R65, R69) -/

/-- Bit `5j + k` of bits5(V) is bit `4 - k` of value j. -/
theorem symBits_get (vs : List Sym) (q : Nat) :
    (symBits vs)[q]? = (vs[q / 5]?).map fun v => v.getLsbD (4 - q % 5) := by
  induction vs generalizing q with
  | nil => simp [symBits]
  | cons v vs ih =>
    have hcons : symBits (v :: vs) =
        [v.getLsbD 4, v.getLsbD 3, v.getLsbD 2, v.getLsbD 1, v.getLsbD 0] ++ symBits vs := by simp [symBits]
    rw [hcons]
    rcases Nat.lt_or_ge q 5 with h | h
    · rw [List.getElem?_append_left (by simpa using h)]
      interval_cases q <;> simp
    · rw [List.getElem?_append_right (by simpa using h)]
      obtain ⟨r, rfl⟩ := Nat.exists_eq_add_of_le h
      have h₁ : 5 + r - 5 = r := by omega
      have h₂ : (5 + r) / 5 = r / 5 + 1 := by omega
      have h₃ : (5 + r) % 5 = r % 5 := by omega
      simp only [List.length_cons, List.length_nil, h₁, h₂, h₃, List.getElem?_cons_succ]
      exact ih r

theorem byteOfBits_getLsbD (b7 b6 b5 b4 b3 b2 b1 b0 : Bool) {k : Nat} (hk : k < 8) :
    some ((byteOfBits b7 b6 b5 b4 b3 b2 b1 b0).getLsbD (7 - k)) = [b7, b6, b5, b4, b3, b2, b1, b0][k]? := by
  interval_cases k <;> revert b7 b6 b5 b4 b3 b2 b1 b0 <;> decide

/-- Bit `7 - k` of byte j of a packed stream is stream bit `8j + k`. -/
theorem packBits_get (bits : List Bool) {j k : Nat} (hj : j < bits.length / 8) (hk : k < 8) :
    (packBits bits)[j]?.map (fun b => b.getLsbD (7 - k)) = bits[8 * j + k]? := by
  induction bits using packBits.induct generalizing j with
  | case1 b7 b6 b5 b4 b3 b2 b1 b0 rest ih =>
    simp only [packBits]
    cases j with
    | zero =>
      have := byteOfBits_getLsbD b7 b6 b5 b4 b3 b2 b1 b0 hk
      simp only [List.getElem?_cons_zero, Option.map_some, this, Nat.mul_zero, Nat.zero_add]
      interval_cases k <;> simp
    | succ j =>
      have h : 8 * (j + 1) + k = 8 * j + k + 8 := by omega
      rw [List.getElem?_cons_succ, ih (by simp only [List.length_cons] at hj; omega), h]
      simp
  | case2 bits h =>
    have hlen := packBits_length bits
    rw [packBits.eq_def] at hlen
    split at hlen
    · exact absurd rfl (h _ _ _ _ _ _ _ _ _)
    · simp only [List.length_nil] at hlen
      omega

/-! ### The encoder's chunks (R65) -/

/-- Bit `p` of bits(B), most significant bit of each byte first; 0 beyond its end (R9). -/
abbrev streamBit (bs : List Byte) (p : Nat) : Bool := (bs.getD (p / 8) 0#8).getLsbD (7 - p % 8)

/-- Bit `39 - p` of a block's value X is stream bit p. -/
theorem blockValue_getLsbD (bs : List Byte) {p : Nat} (hp : p < 40) :
    (blockValue bs).getLsbD (39 - p) = streamBit bs p := by
  simp only [blockValue, BitVec.getLsbD_append]
  interval_cases p <;> simp

/-- Character k of a block: ALPH of the stream bits 5k to 5k+4 where it is real, else `=`. -/
theorem blockChar_spec (bs : List Byte) {k : Nat} (hk : k < 8) :
    if 5 * k < 8 * bs.length then
      ∃ v : Sym, blockChar bs k = alph v ∧ ∀ j, j < 5 → v.getLsbD (4 - j) = streamBit bs (5 * k + j)
    else blockChar bs k = padChar := by
  unfold blockChar
  split
  · refine ⟨_, rfl, fun j hj => ?_⟩
    rw [← blockValue_getLsbD bs (by omega : 5 * k + j < 40), BitVec.getLsbD_extractLsb']
    have h : 35 - 5 * k + (4 - j) = 39 - (5 * k + j) := by omega
    simp only [h, decide_eq_true_eq.mpr (by omega : 4 - j < 5), Bool.true_and]
  · rfl

theorem encodeBlock_get (bs : List Byte) {k : Nat} (hk : k < 8) : (encodeBlock bs)[k]? = some (blockChar bs k) := by
  simp [encodeBlock, hk]

/-- Character m of the text of a byte sequence (R66): real exactly when 5m < 8L, and then ALPH of stream bits 5m to
5m+4. -/
theorem encodeBytes_spec (bs : List Byte) {m : Nat} (hm : m < encodedLength bs.length) :
    ∃ c, (encodeBytes bs)[m]? = some c ∧
      if 5 * m < 8 * bs.length then
        ∃ v : Sym, c = alph v ∧ ∀ j, j < 5 → v.getLsbD (4 - j) = streamBit bs (5 * m + j)
      else c = padChar := by
  have block : ∀ (xs : List Byte), m < 8 →
      ∃ c, (encodeBlock xs)[m]? = some c ∧
        if 5 * m < 8 * xs.length then
          ∃ v : Sym, c = alph v ∧ ∀ j, j < 5 → v.getLsbD (4 - j) = streamBit xs (5 * m + j)
        else c = padChar :=
    fun xs h8 => ⟨_, encodeBlock_get xs h8, blockChar_spec xs h8⟩
  induction bs using encodeBytes.induct generalizing m with
  | case1 => simp [encodedLength] at hm
  | case2 a => exact block _ (by simpa [encodedLength] using hm)
  | case3 a b => exact block _ (by simpa [encodedLength] using hm)
  | case4 a b c => exact block _ (by simpa [encodedLength] using hm)
  | case5 a b c d => exact block _ (by simpa [encodedLength] using hm)
  | case6 a b c d e rest ih =>
    simp only [encodeBytes]
    rcases Nat.lt_or_ge m 8 with h | h
    · rw [List.getElem?_append_left (by simpa using h)]
      obtain ⟨ch, h₁, h₂⟩ := block [a, b, c, d, e] h
      refine ⟨ch, h₁, ?_⟩
      rw [if_pos (by simp only [List.length_cons, List.length_nil]; omega)] at h₂
      rw [if_pos (by simp only [List.length_cons]; omega)]
      obtain ⟨v, hv, hb⟩ := h₂
      refine ⟨v, hv, fun j hj => ?_⟩
      rw [hb j hj]
      have h5 : (5 * m + j) / 8 < 5 := by omega
      simp only [streamBit]
      generalize (5 * m + j) / 8 = q at h5
      interval_cases q <;> rfl
    · rw [List.getElem?_append_right (by simpa using h)]
      obtain ⟨r, rfl⟩ := Nat.exists_eq_add_of_le h
      have hr : r < encodedLength rest.length := by
        simp only [encodedLength, List.length_cons] at hm ⊢
        omega
      obtain ⟨ch, h₁, h₂⟩ := ih hr fun xs h8 => ⟨_, encodeBlock_get xs h8, blockChar_spec xs h8⟩
      refine ⟨ch, by simpa using h₁, ?_⟩
      have hiff : 5 * (8 + r) < 8 * (a :: b :: c :: d :: e :: rest).length ↔ 5 * r < 8 * rest.length := by
        simp only [List.length_cons]
        omega
      have hbit : ∀ j, streamBit (a :: b :: c :: d :: e :: rest) (5 * (8 + r) + j) = streamBit rest (5 * r + j) := by
        intro j
        have h₁ : (5 * (8 + r) + j) / 8 = (5 * r + j) / 8 + 5 := by omega
        have h₂ : (5 * (8 + r) + j) % 8 = (5 * r + j) % 8 := by omega
        simp only [streamBit, h₁, h₂, List.getD_cons_succ]
      simp only [hiff, hbit]
      exact h₂

/-- ALPH and SYMVAL are inverse, and folding leaves the alphabet's upper case alone (R63, R64). -/
theorem symVal_alph (v : Sym) : symVal (fold (alph v)) = some v := by
  revert v
  decide

theorem alph_ne_pad (v : Sym) : alph v ≠ padChar := by
  revert v
  decide

theorem fold_eq_pad (c : Byte) : fold c = padChar ↔ c = padChar := by
  revert c
  decide

theorem fold_fold (c : Byte) : fold (fold c) = fold c := by
  revert c
  decide

end Laws

end Sys2Proof.Machine
end

