-- ==== Sys2Proof/Laws/Memory.lean ====
section
/-! SUPPORT. The laws of the byte buffers: reading after writing, the canonical form, and reading a run of bytes. -/

namespace Sys2Proof.Machine

namespace Laws

variable {m : Memory} {cap a x n : Nat} {b : Byte} {bs : List Byte}

@[simp] theorem read_nil (x : Nat) : Memory.read [] x = none := rfl

/-- Reading after writing one byte. -/
theorem read_write (m : Memory) (a x : Nat) (b : Byte) :
    (m.write a b).read x = if x = a then some b else m.read x := by
  induction m with
  | nil => simp [Memory.write, Memory.read]
  | cons c m ih =>
    obtain ⟨k, d⟩ := c
    simp only [Memory.write]
    split
    · simp [Memory.read]
    · split
      · subst a
        simp only [Memory.read]
        split <;> simp_all
      · simp only [Memory.read, ih]
        split_ifs <;> simp_all

@[simp] theorem read_write_self : (m.write a b).read a = some b := by simp [read_write]

theorem read_write_of_ne (h : x ≠ a) : (m.write a b).read x = m.read x := by simp [read_write, h]

/-- Reading after writing a run of bytes: inside the run the byte written, outside it the byte as before. -/
theorem read_writeBytes (m : Memory) (a x : Nat) (bs : List Byte) :
    (m.writeBytes a bs).read x = if a ≤ x ∧ x < a + bs.length then bs[x - a]? else m.read x := by
  induction bs generalizing m a with
  | nil =>
    simp only [Memory.writeBytes, List.length_nil, Nat.add_zero]
    rw [if_neg (by omega)]
  | cons b bs ih =>
    simp only [Memory.writeBytes, ih, read_write, List.length_cons]
    by_cases hx : x = a
    · subst hx; simp
    · by_cases h : a + 1 ≤ x ∧ x < a + 1 + bs.length
      · have : x - a = x - (a + 1) + 1 := by omega
        rw [if_pos h, if_pos (by omega), this, List.getElem?_cons_succ]
      · rw [if_neg h, if_neg hx, if_neg (by omega)]

theorem read_writeBytes_inside (h₁ : a ≤ x) (h₂ : x < a + bs.length) : (m.writeBytes a bs).read x = bs[x - a]? := by
  simp [read_writeBytes, h₁, h₂]

theorem read_writeBytes_outside (h : x < a ∨ a + bs.length ≤ x) : (m.writeBytes a bs).read x = m.read x := by
  rw [read_writeBytes, if_neg (by omega)]

/-- Where the keys of `write` come from. -/
theorem mem_write {c : Host.Cell} (h : c ∈ m.write a b) : c = (a, b) ∨ c ∈ m := by
  induction m with
  | nil => simpa [Memory.write] using h
  | cons d m ih =>
    simp only [Memory.write] at h
    split_ifs at h <;> simp_all <;> tauto

/-- Writing a byte inside the capacity keeps the canonical form. -/
theorem write_wf (hm : m.wf cap) (ha : a < cap) : (m.write a b).wf cap := by
  refine ⟨?_, fun c hc => ?_⟩
  · obtain ⟨hs, -⟩ := hm
    induction m with
    | nil => simp [Memory.write]
    | cons d m ih =>
      obtain ⟨hd, hs⟩ := List.pairwise_cons.mp hs
      simp only [Memory.write]
      split_ifs with h₁ h₂
      · refine List.pairwise_cons.mpr ⟨fun c hc => ?_, List.pairwise_cons.mpr ⟨hd, hs⟩⟩
        rcases List.mem_cons.mp hc with rfl | hc
        · exact h₁
        · exact lt_trans h₁ (hd c hc)
      · exact List.pairwise_cons.mpr ⟨fun c hc => by subst h₂; exact hd c hc, hs⟩
      · refine List.pairwise_cons.mpr ⟨fun c hc => ?_, ih hs⟩
        rcases mem_write hc with rfl | hc
        · show d.1 < a
          omega
        · exact hd c hc
  · rcases mem_write hc with rfl | hc
    · exact ha
    · exact hm.2 c hc

/-- Writing a run of bytes inside the capacity keeps the canonical form. -/
theorem writeBytes_wf (hm : m.wf cap) (h : a + bs.length ≤ cap) : (m.writeBytes a bs).wf cap := by
  induction bs generalizing m a with
  | nil => exact hm
  | cons b bs ih =>
    simp only [List.length_cons] at h
    exact ih (write_wf hm (by omega)) (by omega)

theorem nil_wf : Memory.wf cap [] := by simp [Memory.wf]

/-- A read below every key finds nothing. -/
theorem read_eq_none_of_lt (h : ∀ c ∈ m, x < c.1) : m.read x = none := by
  induction m with
  | nil => rfl
  | cons d m ih =>
    have hd := h d (by simp)
    simp only [Memory.read]
    rw [if_neg (by omega), ih fun c hc => h c (by simp [hc])]

/-- A buffer in canonical form lists nothing at or above its capacity. -/
theorem read_eq_none_of_cap (hm : m.wf cap) (h : cap ≤ x) : m.read x = none := by
  obtain ⟨-, hk⟩ := hm
  induction m with
  | nil => rfl
  | cons d m ih =>
    have hd := hk d (by simp)
    simp only [Memory.read]
    rw [if_neg (by omega), ih fun c hc => hk c (by simp [hc])]

/-- Two buffers in canonical form that read alike are equal data. -/
theorem wf_ext {m' : Memory} (hm : m.wf cap) (hm' : m'.wf cap) (h : ∀ x, m.read x = m'.read x) : m = m' := by
  obtain ⟨hs, hk⟩ := hm
  obtain ⟨hs', hk'⟩ := hm'
  induction m generalizing m' with
  | nil =>
    cases m' with
    | nil => rfl
    | cons d m' => have := h d.1; simp [Memory.read] at this
  | cons c m ih =>
    cases m' with
    | nil => have := h c.1; simp [Memory.read] at this
    | cons d m' =>
      obtain ⟨hc, hs⟩ := List.pairwise_cons.mp hs
      obtain ⟨hd, hs'⟩ := List.pairwise_cons.mp hs'
      have hcn : Memory.read m c.1 = none := read_eq_none_of_lt hc
      have hdn : Memory.read m' d.1 = none := read_eq_none_of_lt hd
      have key : c.1 = d.1 := by
        rcases lt_trichotomy c.1 d.1 with hlt | heq | hgt
        · have h1 := h c.1
          have h2 : Memory.read m' c.1 = none := read_eq_none_of_lt fun e he => lt_trans hlt (hd e he)
          simp [Memory.read, h2, ne_of_lt hlt] at h1
        · exact heq
        · have h1 := h d.1
          have h2 : Memory.read m d.1 = none := read_eq_none_of_lt fun e he => lt_trans hgt (hc e he)
          simp [Memory.read, h2, ne_of_lt hgt] at h1
      have hval : c.2 = d.2 := by have h1 := h c.1; simpa [Memory.read, key] using h1
      have hcd : c = d := Prod.ext key hval
      have hm' : m = m' := by
        refine ih (fun x => ?_) hs (fun e he => hk e (by simp [he])) hs' (fun e he => hk' e (by simp [he]))
        by_cases hx : x = c.1
        · rw [hx, hcn, key, hdn]
        · have h1 := h x
          simpa [Memory.read, hx, ← key] using h1
      rw [hcd, hm']

/-- Reading a run of bytes succeeds exactly when every byte has been written, and gives those bytes. -/
theorem readBytes_eq_ok_iff (m : Memory) (a n : Nat) (bs : List Byte) :
    m.readBytes a n = .ok bs ↔ bs.length = n ∧ ∀ i, i < n → m.read (a + i) = bs[i]? := by
  induction n generalizing a bs with
  | zero =>
    simp only [Memory.readBytes, Except.ok.injEq]
    constructor
    · rintro rfl; simp
    · rintro ⟨h, -⟩; exact (List.length_eq_zero_iff.mp h).symm
  | succ n ih =>
    simp only [Memory.readBytes]
    cases hg : m.read a with
    | none =>
      simp only [reduceCtorEq, false_iff, not_and]
      intro hl h
      have h0 := h 0 (by omega)
      rw [Nat.add_zero, hg] at h0
      have : bs[0]? = some (bs[0]'(by omega)) := List.getElem?_eq_getElem _
      simp_all
    | some b =>
      cases hr : m.readBytes (a + 1) n with
      | error i =>
        simp only [reduceCtorEq, false_iff, not_and]
        intro hl h
        cases bs with
        | nil => simp at hl
        | cons c cs =>
          have := (ih (a + 1) cs).mpr ⟨by simpa using hl, fun i hi => by
            have := h (i + 1) (by omega)
            simpa [Nat.add_assoc, Nat.add_comm 1 i] using this⟩
          rw [hr] at this
          cases this
      | ok cs =>
        obtain ⟨hcl, hcs⟩ := (ih (a + 1) cs).mp hr
        simp only [Except.ok.injEq]
        constructor
        · rintro rfl
          refine ⟨by simp [hcl], fun i hi => ?_⟩
          cases i with
          | zero => simpa using hg
          | succ i =>
            have := hcs i (by omega)
            simpa [Nat.add_assoc, Nat.add_comm 1 i] using this
        · rintro ⟨hl, h⟩
          cases bs with
          | nil => simp at hl
          | cons c ds =>
            have h0 := h 0 (by omega)
            simp only [Nat.add_zero, hg, List.getElem?_cons_zero, Option.some.injEq] at h0
            have := (ih (a + 1) ds).mpr ⟨by simpa using hl, fun i hi => by
              have := h (i + 1) (by omega)
              simpa [Nat.add_assoc, Nat.add_comm 1 i] using this⟩
            rw [hr] at this
            cases this
            rw [h0]

/-- Reading a run of bytes fails exactly at the lowest index of the run that has never been written. -/
theorem readBytes_eq_error_iff (m : Memory) (a n i : Nat) :
    m.readBytes a n = .error i ↔ a ≤ i ∧ i < a + n ∧ m.read i = none ∧ ∀ j, a ≤ j → j < i → (m.read j).isSome = true := by
  induction n generalizing a with
  | zero => simp [Memory.readBytes]; omega
  | succ n ih =>
    simp only [Memory.readBytes]
    cases hg : m.read a with
    | none =>
      simp only [Except.error.injEq]
      constructor
      · rintro rfl; exact ⟨le_rfl, by omega, hg, fun j h₁ h₂ => by omega⟩
      · rintro ⟨h₁, -, -, h₄⟩
        by_contra hne
        have := h₄ a le_rfl (by omega)
        simp [hg] at this
    | some b =>
      have step : m.readBytes (a + 1) n = .error i ↔
          a ≤ i ∧ i < a + (n + 1) ∧ m.read i = none ∧ ∀ j, a ≤ j → j < i → (m.read j).isSome = true := by
        rw [ih]
        constructor
        · rintro ⟨h₁, h₂, h₃, h₄⟩
          refine ⟨by omega, by omega, h₃, fun j hj₁ hj₂ => ?_⟩
          rcases Nat.eq_or_lt_of_le hj₁ with rfl | h
          · simp [hg]
          · exact h₄ j h hj₂
        · rintro ⟨h₁, h₂, h₃, h₄⟩
          have hne : a ≠ i := by rintro rfl; simp [hg] at h₃
          exact ⟨by omega, by omega, h₃, fun j hj₁ hj₂ => h₄ j (by omega) hj₂⟩
      rw [← step]
      cases m.readBytes (a + 1) n <;> simp

/-- With every byte of the run written, the run reads. -/
theorem readBytes_of_written (h : ∀ i, i < n → (m.read (a + i)).isSome = true) :
    ∃ bs, m.readBytes a n = .ok bs ∧ bs.length = n ∧ ∀ i, i < n → m.read (a + i) = bs[i]? := by
  cases hr : m.readBytes a n with
  | ok bs => exact ⟨bs, rfl, (readBytes_eq_ok_iff ..).mp hr⟩
  | error i =>
    obtain ⟨h₁, h₂, h₃, -⟩ := (readBytes_eq_error_iff ..).mp hr
    have := h (i - a) (by omega)
    rw [Nat.add_sub_cancel' h₁, h₃] at this
    cases this

end Laws

end Sys2Proof.Machine
end

