-- ==== Sys2Proof/Laws/Exec.lean ====
section
/-! SUPPORT. What each operand form and each command can answer, said once: the inversion lemmas the proofs cite instead of
unfolding a meaning. -/

namespace Sys2Proof.Machine

namespace Laws

variable {s t : State} {f : Fault} {n d : Nat} {alg : HashAlg} {strict : Bool}

/-! ### Operand forms -/

theorem withInput_next {k : List Byte → Result} :
    withInput n s k = .next t ↔ ∃ bs, s.inBuf.readBytes 0 n = .ok bs ∧ k bs = .next t := by
  simp only [withInput]
  cases s.inBuf.readBytes 0 n <;> simp

theorem withInput_fault {k : List Byte → Result} :
    withInput n s k = .fault f ↔
      (∃ i, s.inBuf.readBytes 0 n = .error i ∧ f = .unwrittenInput i) ∨
      ∃ bs, s.inBuf.readBytes 0 n = .ok bs ∧ k bs = .fault f := by
  simp only [withInput]
  cases s.inBuf.readBytes 0 n <;> simp [eq_comm]

theorem withInLen_next {k : Nat → Result} :
    withInLen s k = .next t ↔
      (s.cfg.inCap < s.inLen.toNat ∧ t = raiseError .badLength s.inLen.toNat s) ∨
      (s.inLen.toNat ≤ s.cfg.inCap ∧ k s.inLen.toNat = .next t) := by
  simp only [withInLen]
  split
  · next h => simp [h, eq_comm]
  · next h => simp [h, not_lt.mp h]

theorem withInLen_fault {k : Nat → Result} :
    withInLen s k = .fault f ↔ s.inLen.toNat ≤ s.cfg.inCap ∧ k s.inLen.toNat = .fault f := by
  simp only [withInLen]
  split
  · next h => simp [h]
  · next h => simp [not_lt.mp h]

theorem withRoom_next {k : Unit → Result} :
    withRoom n s k = .next t ↔
      (s.cfg.outCap < n ∧ t = raiseError .outOverflow n s) ∨ (n ≤ s.cfg.outCap ∧ k () = .next t) := by
  simp only [withRoom]
  split
  · next h => simp [h, eq_comm]
  · next h => simp [h, not_lt.mp h]

theorem withRoom_fault {k : Unit → Result} : withRoom n s k = .fault f ↔ n ≤ s.cfg.outCap ∧ k () = .fault f := by
  simp only [withRoom]
  split
  · next h => simp [h]
  · next h => simp [not_lt.mp h]

theorem withDigits_next {k : Unit → Result} :
    withDigits d s k = .next t ↔
      (¬ DigitsSupported d ∧ t = raiseError .invalidDigitCount d s) ∨ (DigitsSupported d ∧ k () = .next t) := by
  simp only [withDigits]
  split
  · next h => exact ⟨fun hk => .inr ⟨h, hk⟩, fun hk => hk.elim (fun hn => absurd h hn.1) And.right⟩
  · next h => rw [Host.Outcome.next.injEq]; tauto

theorem withDigits_fault {k : Unit → Result} :
    withDigits d s k = .fault f ↔ DigitsSupported d ∧ k () = .fault f := by
  simp only [withDigits]
  split
  · next h => exact ⟨fun hk => ⟨h, hk⟩, And.right⟩
  · next h => simp only [reduceCtorEq, false_iff]; tauto

theorem withAlg_next {k : Nat → Result} :
    withAlg alg s k = .next t ↔
      (digestLength alg = none ∧ t = raiseError .unsupportedAlgorithm 3 s) ∨
      ∃ n, digestLength alg = some n ∧ k n = .next t := by
  simp only [withAlg]
  cases digestLength alg <;> simp [eq_comm]

theorem withAlg_fault {k : Nat → Result} :
    withAlg alg s k = .fault f ↔ ∃ n, digestLength alg = some n ∧ k n = .fault f := by
  simp only [withAlg]
  cases digestLength alg <;> simp

theorem withDigest_next {k : List Byte → Result} :
    withDigest n s k = .next t ↔
      (s.inLen.toNat ≠ n ∧ t = raiseError .badLength s.inLen.toNat s) ∨
      (s.inLen.toNat = n ∧ ∃ bs, s.inBuf.readBytes 0 n = .ok bs ∧ k bs = .next t) := by
  simp only [withDigest]
  split
  · next h => simp [h, eq_comm]
  · next h => simp [not_not.mp h, withInput_next]

theorem withDigest_fault {k : List Byte → Result} :
    withDigest n s k = .fault f ↔
      s.inLen.toNat = n ∧ ((∃ i, s.inBuf.readBytes 0 n = .error i ∧ f = .unwrittenInput i) ∨
        ∃ bs, s.inBuf.readBytes 0 n = .ok bs ∧ k bs = .fault f) := by
  simp only [withDigest]
  split
  · next h => simp [h]
  · next h => simp [not_not.mp h, withInput_fault]

/-! ### Commands: every next state they answer -/

theorem execB32enc_next : execB32enc s = .next t ↔
    (s.cfg.inCap < s.inLen.toNat ∧ t = raiseError .badLength s.inLen.toNat s) ∨
    (s.inLen.toNat ≤ s.cfg.inCap ∧
      ((s.cfg.outCap < encodedLength s.inLen.toNat ∧ t = raiseError .outOverflow (encodedLength s.inLen.toNat) s) ∨
       (encodedLength s.inLen.toNat ≤ s.cfg.outCap ∧
         ∃ bs, s.inBuf.readBytes 0 s.inLen.toNat = .ok bs ∧ succeed (writeOut (encodeBytes bs) s) = t))) := by
  simp only [execB32enc, withInLen_next, withRoom_next, withInput_next, Host.Outcome.next.injEq]

/-- What B32DEC answers once its input has been read: its checks on the characters, in order. -/
theorem execB32dec_next : execB32dec strict s = .next t ↔
    (s.cfg.inCap < s.inLen.toNat ∧ t = raiseError .badLength s.inLen.toNat s) ∨
    (s.inLen.toNat ≤ s.cfg.inCap ∧ ∃ bs, s.inBuf.readBytes 0 s.inLen.toNat = .ok bs ∧
      ((∃ i, symValues 0 (bs.take (s.inLen.toNat - padRun bs)) = .error i ∧
          raiseError .invalidCharacter i s = t) ∨
       ∃ vs, symValues 0 (bs.take (s.inLen.toNat - padRun bs)) = .ok vs ∧
        ((strict = true ∧ ¬ StrictOK s.inLen.toNat (padRun bs) ∧ raiseError .invalidPadding (padRun bs) s = t) ∨
         (¬ (strict = true ∧ ¬ StrictOK s.inLen.toNat (padRun bs)) ∧
          ((s.cfg.outCap < decodedLength (s.inLen.toNat - padRun bs) ∧
              t = raiseError .outOverflow (decodedLength (s.inLen.toNat - padRun bs)) s) ∨
           (decodedLength (s.inLen.toNat - padRun bs) ≤ s.cfg.outCap ∧
              succeed (writeOut (packBits (symBits vs)) s) = t)))))) := by
  simp only [execB32dec, withInLen_next, withInput_next]
  refine or_congr_right (and_congr_right fun _ => exists_congr fun bs => and_congr_right fun _ => ?_)
  cases symValues 0 (bs.take (s.inLen.toNat - padRun bs)) with
  | error i => simp
  | ok vs =>
    simp only [reduceCtorEq, false_and, exists_const, Except.ok.injEq, exists_eq_left', false_or]
    split
    · next h => simp [h]
    · next h =>
      have h' : ¬ (strict = true ∧ ¬ StrictOK s.inLen.toNat (padRun bs) ∧ raiseError .invalidPadding (padRun bs) s = t) :=
        fun ⟨a, b, _⟩ => h ⟨a, b⟩
      simp only [h, h', not_false_eq_true, true_and, false_or, withRoom_next, Host.Outcome.next.injEq]

theorem execTctr_next : execTctr s = .next t ↔
    (s.period = 0#32 ∧ raiseError .invalidPeriod 0 s = t) ∨
    (s.period ≠ 0#32 ∧ succeed (writeCtr (BitVec.ofNat 64 (s.t.toNat / s.period.toNat)) s) = t) := by
  simp only [execTctr]
  split <;> simp_all

theorem execCtrser_next : execCtrser s = .next t ↔ succeed (writeOut (counterBytes s.ctr) s) = t := by
  simp only [execCtrser, Host.Outcome.next.injEq]

theorem execDtrunc_next : execDtrunc alg s = .next t ↔
    (digestLength alg = none ∧ t = raiseError .unsupportedAlgorithm 3 s) ∨
    ∃ n, digestLength alg = some n ∧
      ((s.inLen.toNat ≠ n ∧ t = raiseError .badLength s.inLen.toNat s) ∨
       (s.inLen.toNat = n ∧ ∃ bs, s.inBuf.readBytes 0 n = .ok bs ∧ succeed (writeVal (truncatedValue bs) s) = t)) := by
  simp only [execDtrunc, withAlg_next, withDigest_next, Host.Outcome.next.injEq]

theorem execModr_next : execModr d s = .next t ↔
    (¬ DigitsSupported d ∧ t = raiseError .invalidDigitCount d s) ∨
    (DigitsSupported d ∧ succeed (writeCode (reduceDigits s.val d) s) = t) := by
  simp only [execModr, withDigits_next, Host.Outcome.next.injEq]

theorem execDecfmt_next : execDecfmt d s = .next t ↔
    (¬ DigitsSupported d ∧ t = raiseError .invalidDigitCount d s) ∨
    (DigitsSupported d ∧ succeed (writeOut (decimalChars (s.code.toNat % 10 ^ d) d) s) = t) := by
  simp only [execDecfmt, withDigits_next, Host.Outcome.next.injEq]

theorem execOtpfin_next : execOtpfin alg d s = .next t ↔
    (digestLength alg = none ∧ t = raiseError .unsupportedAlgorithm 3 s) ∨
    ∃ n, digestLength alg = some n ∧
      ((¬ DigitsSupported d ∧ t = raiseError .invalidDigitCount d s) ∨
       (DigitsSupported d ∧
        ((s.inLen.toNat ≠ n ∧ t = raiseError .badLength s.inLen.toNat s) ∨
         (s.inLen.toNat = n ∧ ∃ bs, s.inBuf.readBytes 0 n = .ok bs ∧
           succeed (writeOut (decimalChars (reduceDigits (truncatedValue bs) d).toNat d)
             (writeCode (reduceDigits (truncatedValue bs) d) (writeVal (truncatedValue bs) s))) = t)))) := by
  simp only [execOtpfin, withAlg_next, withDigits_next, withDigest_next, Host.Outcome.next.injEq]

/-! ### Commands: every fault they answer -/

theorem execB32enc_fault : execB32enc s = .fault f ↔
    s.inLen.toNat ≤ s.cfg.inCap ∧ encodedLength s.inLen.toNat ≤ s.cfg.outCap ∧
      ∃ i, s.inBuf.readBytes 0 s.inLen.toNat = .error i ∧ f = .unwrittenInput i := by
  simp [execB32enc, withInLen_fault, withRoom_fault, withInput_fault]

theorem execB32dec_fault : execB32dec strict s = .fault f ↔
    s.inLen.toNat ≤ s.cfg.inCap ∧ ∃ i, s.inBuf.readBytes 0 s.inLen.toNat = .error i ∧ f = .unwrittenInput i := by
  simp only [execB32dec, withInLen_fault, withInput_fault]
  refine and_congr_right fun _ => ⟨fun h => ?_, Or.inl⟩
  rcases h with h | ⟨bs, -, h⟩
  · exact h
  · exfalso
    revert h
    cases symValues 0 (bs.take (s.inLen.toNat - padRun bs)) with
    | error i => simp
    | ok vs =>
      simp only
      split <;> simp [withRoom_fault]

theorem execTctr_ne_fault : execTctr s ≠ .fault f := by
  simp only [execTctr]
  split <;> simp

theorem execCtrser_ne_fault : execCtrser s ≠ .fault f := by simp [execCtrser]

theorem execDtrunc_fault : execDtrunc alg s = .fault f ↔
    ∃ n, digestLength alg = some n ∧ s.inLen.toNat = n ∧
      ∃ i, s.inBuf.readBytes 0 n = .error i ∧ f = .unwrittenInput i := by
  simp [execDtrunc, withAlg_fault, withDigest_fault]

theorem execModr_ne_fault : execModr d s ≠ .fault f := by simp [execModr, withDigits_fault]

theorem execDecfmt_ne_fault : execDecfmt d s ≠ .fault f := by simp [execDecfmt, withDigits_fault]

theorem execOtpfin_fault : execOtpfin alg d s = .fault f ↔
    ∃ n, digestLength alg = some n ∧ DigitsSupported d ∧ s.inLen.toNat = n ∧
      ∃ i, s.inBuf.readBytes 0 n = .error i ∧ f = .unwrittenInput i := by
  simp [execOtpfin, withAlg_fault, withDigits_fault, withDigest_fault]

/-! ### exec is the command's meaning -/

@[simp] theorem exec_b32enc : exec .b32enc s = execB32enc s := rfl
@[simp] theorem exec_b32dec : exec (.b32dec strict) s = execB32dec strict s := rfl
@[simp] theorem exec_tctr : exec .tctr s = execTctr s := rfl
@[simp] theorem exec_ctrser : exec .ctrser s = execCtrser s := rfl
@[simp] theorem exec_dtrunc : exec (.dtrunc alg) s = execDtrunc alg s := rfl
@[simp] theorem exec_modr : exec (.modr d) s = execModr d s := rfl
@[simp] theorem exec_decfmt : exec (.decfmt d) s = execDecfmt d s := rfl
@[simp] theorem exec_otpfin : exec (.otpfin alg d) s = execOtpfin alg d s := rfl

/-- Every command that answers a next state ends with its report or with success (R32, R86). -/
theorem exec_ends {i : Instr} (h : exec i s = .next t) :
    (∃ e n, t = raiseError e n s) ∨ ∃ r, t = succeed r ∧ r.err = s.err := by
  cases i with
  | b32enc =>
    rcases execB32enc_next.mp h with ⟨-, h⟩ | ⟨-, ⟨-, h⟩ | ⟨-, bs, -, h⟩⟩
    · exact .inl ⟨_, _, h⟩
    · exact .inl ⟨_, _, h⟩
    · exact .inr ⟨_, h.symm, rfl⟩
  | b32dec st =>
    rcases execB32dec_next.mp h with ⟨-, h⟩ | ⟨-, bs, -, ⟨i, -, h⟩ | ⟨vs, -, ⟨-, -, h⟩ | ⟨-, ⟨-, h⟩ | ⟨-, h⟩⟩⟩⟩
    · exact .inl ⟨_, _, h⟩
    · exact .inl ⟨_, _, h.symm⟩
    · exact .inl ⟨_, _, h.symm⟩
    · exact .inl ⟨_, _, h⟩
    · exact .inr ⟨_, h.symm, rfl⟩
  | tctr =>
    rcases execTctr_next.mp h with ⟨-, h⟩ | ⟨-, h⟩
    · exact .inl ⟨_, _, h.symm⟩
    · exact .inr ⟨_, h.symm, rfl⟩
  | ctrser => exact .inr ⟨_, (execCtrser_next.mp h).symm, rfl⟩
  | dtrunc a =>
    rcases execDtrunc_next.mp h with ⟨-, h⟩ | ⟨n, -, ⟨-, h⟩ | ⟨-, bs, -, h⟩⟩
    · exact .inl ⟨_, _, h⟩
    · exact .inl ⟨_, _, h⟩
    · exact .inr ⟨_, h.symm, rfl⟩
  | modr d =>
    rcases execModr_next.mp h with ⟨-, h⟩ | ⟨-, h⟩
    · exact .inl ⟨_, _, h⟩
    · exact .inr ⟨_, h.symm, rfl⟩
  | decfmt d =>
    rcases execDecfmt_next.mp h with ⟨-, h⟩ | ⟨-, h⟩
    · exact .inl ⟨_, _, h⟩
    · exact .inr ⟨_, h.symm, rfl⟩
  | otpfin a d =>
    rcases execOtpfin_next.mp h with ⟨-, h⟩ | ⟨n, -, ⟨-, h⟩ | ⟨-, ⟨-, h⟩ | ⟨-, bs, -, h⟩⟩⟩
    · exact .inl ⟨_, _, h⟩
    · exact .inl ⟨_, _, h⟩
    · exact .inl ⟨_, _, h⟩
    · exact .inr ⟨_, h.symm, rfl⟩

end Laws

end Sys2Proof.Machine
end

