-- ==== Sys2Proof/Laws/PerInstr.lean ====
section
/-! SUPPORT. Statements made per command: the word of a well-formed command matches the row of the table it belongs
to. -/

namespace Sys2Proof.Laws.RowOf

/-- The mnemonic of the row a command belongs to (30_encoding.md R53). -/
def mnemonic : Instr → String
  | .b32enc => "B32ENC"
  | .b32dec _ => "B32DEC"
  | .tctr => "TCTR"
  | .ctrser => "CTRSER"
  | .dtrunc _ => "DTRUNC"
  | .modr _ => "MODR"
  | .decfmt _ => "DECFMT"
  | .otpfin _ _ => "OTPFIN"

/-- The word of a well-formed command matches its own row of the table and no other, and its RSV field is 0 (R51, R57,
R58). -/
def Statement (i : Instr) : Prop :=
  i.wellFormed = true →
    (commandTable.filter fun r => encode i &&& r.mask == r.pattern).map CommandRow.mnemonic = [mnemonic i] ∧
    (encode i).extractLsb' 15 17 = 0#17

theorem b32enc : Statement .b32enc := by
  unfold Statement
  decide

theorem b32dec (strict : Bool) : Statement (.b32dec strict) := by
  unfold Statement
  revert strict
  decide

theorem tctr : Statement .tctr := by
  unfold Statement
  decide

theorem ctrser : Statement .ctrser := by
  unfold Statement
  decide

theorem dtrunc (alg : HashAlg) : Statement (.dtrunc alg) := by
  unfold Statement
  cases alg <;> decide

theorem modr (d : Nat) : Statement (.modr d) := by
  intro h
  have hd : d < 16 := by simpa [Instr.wellFormed] using h
  clear h
  interval_cases d <;> decide

theorem decfmt (d : Nat) : Statement (.decfmt d) := by
  intro h
  have hd : d < 16 := by simpa [Instr.wellFormed] using h
  clear h
  interval_cases d <;> decide

theorem otpfin (alg : HashAlg) (d : Nat) : Statement (.otpfin alg d) := by
  intro h
  have hd : d < 16 := by simpa [Instr.wellFormed] using h
  clear h
  interval_cases d <;> cases alg <;> decide

end Sys2Proof.Laws.RowOf
end

