-- ==== Sys2Proof/Tests/Slice0.lean ====
section
/-! SUPPORT. Tests whose expected results come from spec/ (the words of R57, the vectors of 95_test_vectors.md), and a
witness for the hypotheses and for each clause of every statement. -/

namespace Sys2Proof.Tests

open Sys2Proof.Machine Sys2Proof.Claims

/-! ### Small states -/

/-- A reset block with the bytes given in IN and their count in IN_LEN. -/
def loaded (bs : List Byte) : State :=
  { State.reset with inBuf := State.reset.inBuf.writeBytes 0 bs, inLen := BitVec.ofNat 16 bs.length }

/-- A reset block whose parameters are the capacities given. -/
def capped (inCap outCap : Nat) : State := State.resetWith { inCap, outCap, base := 0 }

/-- `n` copies of a byte in the IN buffer of `s`, and IN_LEN = n. -/
def filled (b : Byte) (n : Nat) (s : State) : State :=
  { s with inBuf := s.inBuf.writeBytes 0 (List.replicate n b), inLen := BitVec.ofNat 16 n }

/-- The next state of an outcome; the state given where there is none. -/
def after (s : State) : Result → State
  | .next t => t
  | .fault _ => s
  | .refused _ => s

/-- The next state of an outcome, if it is one. -/
def nextOf : Result → Option State
  | .next t => some t
  | .fault _ => none
  | .refused _ => none

/-- The fault of an outcome, if it is one. -/
def faultOf : Result → Option Fault
  | .next _ => none
  | .fault f => some f
  | .refused _ => none

/-- The bytes of an ASCII text. -/
def text (t : String) : List Byte := t.toList.map fun c => BitVec.ofNat 8 c.toNat

/-- OUT[0..OUT_LEN). -/
def outBytes (s : State) : List (Option Byte) := (List.range s.outLen.toNat).map s.outBuf.read

/-- A block with the word given in progress. -/
def busyWith (w : Word) (s : State) : State :=
  { s with cmd := w, phase := .busy w, done := false, err := false }

/-- The SHA1 digest of counter 1 (95_test_vectors.md section 2.5). -/
def digest1 : List Byte :=
  [0x75#8, 0xA4#8, 0x8A#8, 0x19#8, 0xD4#8, 0xCB#8, 0xE1#8, 0x00#8, 0x64#8, 0x4E#8,
   0x8A#8, 0xC1#8, 0x39#8, 0x7E#8, 0xEA#8, 0x74#8, 0x7A#8, 0x2D#8, 0x33#8, 0xAB#8]

/-- The bytes 00 01 02 … of the synthetic digests (section 2.5), with the last byte given. -/
def ramp (n : Nat) (last : Byte) : List Byte := (List.range (n - 1)).map (BitVec.ofNat 8) ++ [last]

/-! ### Well-formedness -/

/-- DIG has four bits (R51): a digit count of 16 is refused, 15 is not. -/
theorem test_ill_formed_refused :
    (Instr.modr 16).wellFormed = false ∧ (Instr.decfmt 16).wellFormed = false ∧
    (Instr.otpfin .sha1 16).wellFormed = false ∧ (Instr.otpfin .unsupported 15).wellFormed = true := by decide

/-! ### Decoding: words written bit by bit from R57 -/

theorem test_decode_b32enc : decode 0b00000000000000000000000000000001#32 = .ok .b32enc := by decide
theorem test_decode_b32dec : decode 0b00000000000000000000000000000010#32 = .ok (.b32dec false) := by decide
theorem test_decode_b32dec_s : decode 0b00000000000000000100000000000010#32 = .ok (.b32dec true) := by decide
theorem test_decode_tctr : decode 0b00000000000000000000000000010000#32 = .ok .tctr := by decide
theorem test_decode_ctrser : decode 0b00000000000000000000000000010001#32 = .ok .ctrser := by decide
theorem test_decode_dtrunc : decode 0b00000000000000000010000000100000#32 = .ok (.dtrunc .sha512) := by decide
theorem test_decode_modr : decode 0b00000000000000000000111100100001#32 = .ok (.modr 15) := by decide
theorem test_decode_decfmt : decode 0b00000000000000000000101000100010#32 = .ok (.decfmt 10) := by decide
theorem test_decode_otpfin : decode 0b00000000000000000001011000100011#32 = .ok (.otpfin .sha256 6) := by decide

/-- Section 2.9: the reserved OP values listed there are Illegal. -/
theorem test_illegal_op : [0x00#32, 0x03#32, 0x12#32, 0x24#32, 0xFF#32, 0x8000#32].all
    (fun w => decide (decode w = .error (.reservedOp (w.extractLsb' 0 8)))) = true := by decide

/-- Section 2.9: the words listed there with a nonzero RSV or unused field are Illegal. -/
theorem test_illegal_fields :
    [0x4001#32, 0x0101#32, 0x1001#32, 0x80000002#32, 0x4010#32, 0x0111#32, 0x4020#32, 0x0120#32, 0x1021#32, 0x4022#32,
     0x8023#32].all (fun w => decide (decode w = .error (.nonzeroReservedOrUnused w))) = true := by decide

/-- R61: `OTPFIN SHA1, 8` assembles to 0x00000823 and `B32DEC.S` to 0x00004002; where alg is omitted it is SHA1. -/
theorem test_assemble :
    (assemble ["OTPFIN", "SHA1", "8"]).map encode = some 0x00000823#32 ∧
    (assemble ["B32DEC.S"]).map encode = some 0x00004002#32 ∧
    (assemble ["OTPFIN", "8"]).map encode = some 0x00000823#32 ∧
    (assemble ["DTRUNC", "SHA256"]).map encode = some 0x00001020#32 ∧
    assemble ["MODR", "11"] = none := by decide

/-! ### One command -/

/-- X3, X16. -/
theorem test_b32enc : outBytes (after .reset (exec .b32enc (loaded (text "f")))) = (text "MY======").map some := by decide

/-- Section 2.1: r = 4, and a second block. -/
theorem test_b32enc_blocks :
    outBytes (after .reset (exec .b32enc (loaded [0x66#8, 0x6F#8, 0x6F#8, 0x62#8, 0x61#8, 0x72#8]))) =
      (text "MZXW6YTBOI======").map some ∧
    outBytes (after .reset (exec .b32enc (loaded [0xFF#8, 0xFF#8, 0xFF#8, 0xFF#8]))) = (text "777777Y=").map some := by
  decide

/-- X5, X13. -/
theorem test_b32dec :
    outBytes (after .reset (exec (.b32dec false) (loaded (text "INQXI===")))) = [some 0x43#8, some 0x61#8, some 0x74#8] ∧
    outBytes (after .reset (exec (.b32dec true) (loaded (text "inqxi===")))) = [some 0x43#8, some 0x61#8, some 0x74#8] := by
  decide

/-- Section 2.2: the first of two errors is reported, and the padding error only in strict mode. -/
theorem test_b32dec_errors :
    nextOf (exec (.b32dec true) (loaded (text "MY=A===="))) = some (failed 1#4 2 (loaded (text "MY=A===="))) ∧
    nextOf (exec (.b32dec true) (loaded (text "MYA====="))) = some (failed 2#4 5 (loaded (text "MYA====="))) ∧
    outBytes (after .reset (exec (.b32dec false) (loaded (text "MYA=====")))) = [some 0x66#8] := by decide

/-- Section 2.3. -/
theorem test_tctr :
    (after .reset (exec .tctr { State.reset with t := 1111111109#64 })).ctr = 0x023523EC#64 ∧
    (after .reset (exec .tctr { State.reset with t := 0xFFFFFFFFFFFFFFFF#64, period := 0xFFFFFFFF#32 })).ctr =
      0x0000000100000001#64 := by decide

/-- Section 2.3, the last row: CTR unchanged. -/
theorem test_tctr_period_zero :
    nextOf (exec .tctr { State.reset with t := 100#64, ctr := 5#64, period := 0#32 }) =
      some (failed 3#4 0 { State.reset with t := 100#64, ctr := 5#64, period := 0#32 }) := by decide

/-- Section 2.4, row 3. -/
theorem test_ctrser :
    outBytes (after .reset (exec .ctrser { State.reset with ctr := 0x023523EC#64 })) =
      [0x00#8, 0x00#8, 0x00#8, 0x00#8, 0x02#8, 0x35#8, 0x23#8, 0xEC#8].map some := by decide

/-- Section 2.4: OUT as the host reads it, word 0x804. -/
theorem test_ctrser_window :
    (after .reset (hostStep (.read 0x804 4) (after .reset (exec .ctrser { State.reset with ctr := 0x0123456789ABCDEF#64 })))).reply =
      .data 0xEFCDAB89#32 := by decide

/-- Section 2.5, row 2: the digest of counter 1. -/
theorem test_dtrunc : (after .reset (exec (.dtrunc .sha1) (loaded digest1))).val = 0x41397EEA#32 := by decide

/-- Section 2.5, synthetic digests: off = 15, and the top bit of the first byte cleared. -/
theorem test_dtrunc_edges :
    (after .reset (exec (.dtrunc .sha1) (loaded (ramp 20 0x0F#8)))).val = 0x0F101112#32 ∧
    (after .reset (exec (.dtrunc .sha1) (loaded ([0xFF#8, 0xFF#8, 0xFF#8, 0xFF#8] ++ List.replicate 16 0#8)))).val =
      0x7FFFFFFF#32 := by decide

/-- Section 2.6: d = 8, and all 32 bits of VAL taking part. -/
theorem test_modr :
    (after .reset (exec (.modr 8) { State.reset with val := 1094287082#32 })).code = 94287082#32 ∧
    (after .reset (exec (.modr 6) { State.reset with val := 0xFFFFFFFF#32 })).code = 967295#32 := by decide

/-- Section 2.6, the failing rows. -/
theorem test_modr_digits :
    nextOf (exec (.modr 11) { State.reset with val := 5#32 }) = some (failed 4#4 11 { State.reset with val := 5#32 }) ∧
    nextOf (exec (.modr 0) { State.reset with val := 5#32 }) = some (failed 4#4 0 { State.reset with val := 5#32 }) := by decide

/-- Section 2.7: a leading zero, and the low digits only. -/
theorem test_decfmt :
    outBytes (after .reset (exec (.decfmt 8) { State.reset with code := 7081804#32 })) = (text "07081804").map some ∧
    outBytes (after .reset (exec (.decfmt 4) { State.reset with code := 123456#32 })) = (text "3456").map some := by decide

/-- Section 2.7, d = 10. -/
theorem test_decfmt_ten :
    outBytes (after .reset (exec (.decfmt 10) { State.reset with code := 4294967295#32 })) =
      (text "4294967295").map some := by decide

/-- Section 2.8, row 1. -/
theorem test_otpfin :
    let t := after .reset (exec (.otpfin .sha1 8) (loaded digest1))
    t.val = 0x41397EEA#32 ∧ t.code = 94287082#32 ∧ outBytes t = (text "94287082").map some := by decide

/-- Section 2.8: the order of the checks. -/
theorem test_otpfin_errors :
    nextOf (exec (.otpfin .unsupported 0) (loaded digest1)) = some (failed 5#4 3 (loaded digest1)) ∧
    nextOf (exec (.otpfin .sha1 0) (loaded (ramp 19 0#8))) = some (failed 4#4 0 (loaded (ramp 19 0#8))) ∧
    nextOf (exec (.otpfin .sha256 6) (loaded digest1)) = some (failed 8#4 20 (loaded digest1)) := by decide

/-! ### The window -/

/-- Section 2.10: ID, PERIOD and STATUS after reset. -/
theorem test_reset_reads :
    (after .reset (hostStep (.read 0x000 4) .reset)).reply = .data 0x42333252#32 ∧
    (after .reset (hostStep (.read 0x01C 4) .reset)).reply = .data 0x1E#32 ∧
    (after .reset (hostStep (.read 0x008 4) .reset)).reply = .data 0#32 := by decide

/-- Section 2.10: the upper half of a write to IN_LEN is ignored. -/
theorem test_in_len_write : (after .reset (hostStep (.write 0x014 4 0x12340005#32) .reset)).inLen = 5#16 := by decide

/-- R38: "Cat" is 0x00746143 at 0x400, and reads back. -/
theorem test_in_word :
    let t := after .reset (hostStep (.write 0x400 4 0x00746143#32) .reset)
    (List.range 3).map t.inBuf.read = (text "Cat").map some ∧
    (after t (hostStep (.read 0x400 4) t)).reply = .data 0x00746143#32 := by decide

/-- Section 2.10: the refused accesses. -/
theorem test_refused :
    ([0x001, 0x002, 0x003, 0x038, 0x3FC, 0x540, 0x7FC, 0xA00, 0xFFC].all fun off =>
      (after .reset (hostStep (.read off 4) .reset)).faults == [.busError (BitVec.ofNat 12 off)]) = true ∧
    ([0x000, 0x008, 0x00C, 0x010, 0x018, 0x800].all fun off =>
      (after .reset (hostStep (.write off 4 0#32) .reset)).faults == [.busError (BitVec.ofNat 12 off)]) = true := by decide

/-- Section 2.10: a busy block. -/
theorem test_busy :
    let s := after .reset (hostStep (scriptC Config.reference .tctr) .reset)
    faultOf (hostStep (.write 0x014 4 0#32) s) = some (.hostWriteWhileBusy 0x014#12) ∧
    (after s (hostStep (.read 0x008 4) s)).reply = .data 1#32 ∧
    (after s (hostStep (.read 0x004 4) s)).reply = .data 0x10#32 ∧
    statusWord (after s (hostStep .reset s)) = 0#32 := by decide

/-- A placed command is what the very next step runs: TCTR on the reset registers leaves STATUS = 0b010; the illegal word
0x4001 leaves ERRCODE = 7 and ERRINFO = 0x4001 (section 2.9). -/
theorem test_placed_command :
    statusWord (after .reset (step (State.reset.withFetchWord 32 0x10))) = 0b010#32 ∧
    (after .reset (step (State.reset.withFetchWord 32 0x4001))).errCode = 7#4 ∧
    (after .reset (step (State.reset.withFetchWord 32 0x4001))).errInfo = 0x4001#16 := by decide

/-! ### Witnesses: states and operands that meet the hypotheses of each statement, clause by clause -/

/-- TCTR in progress on the reset registers, `n` host accesses allowed before Complete. -/
def tctrBusy (n : Nat) (ops : List HostOp) : State :=
  { busyWith 0x10#32 State.reset with delay := n, script := ops }

theorem witness_EncodeThenDecodeGivesTheCommand :
    (Instr.otpfin .unsupported 15).wellFormed = true ∧ (Instr.modr 0).wellFormed = true := by decide

theorem witness_DecodeThenEncodeGivesTheWord : decode 0x3F23#32 = .ok (.otpfin .unsupported 15) := by decide

/-- One word for each of R59's grounds, at the lowest and highest bit of each field; legal words beside them. -/
theorem witness_IllegalWordsFailWithIllegalCommand :
    ([0x00#32, 0xFF#32, 0x8001#32, 0x80000001#32, 0x4001#32, 0x4023#32, 0x1021#32, 0x2022#32, 0x0120#32, 0x0802#32].all
      fun w => decide (IllegalByRule w)) = true ∧
    ([0x01#32, 0x4002#32, 0x3020#32, 0x0F21#32, 0x0122#32, 0x3F23#32].all fun w => decide (¬ IllegalByRule w)) = true := by
  decide

/-- The hypotheses on the state, with either ground for Complete. -/
theorem witness_IllegalWordsFailWithIllegalCommand_state :
    (busyWith 0xFF#32 { State.reset with delay := 3 }).phase = .busy 0xFF#32 ∧
    (busyWith 0xFF#32 { State.reset with delay := 3 }).faults = [] ∧
    (busyWith 0xFF#32 { State.reset with delay := 3 }).script = [] ∧
    (busyWith 0xFF#32 { State.reset with script := [.reset] }).delay = 0 := by decide

theorem witness_StepRunsTheDecodedCommand :
    (tctrBusy 0 [.poll]).phase = .busy 0x10#32 ∧ decode 0x10#32 = .ok .tctr ∧ (tctrBusy 0 [.poll]).faults = [] ∧
    (tctrBusy 0 [.poll]).delay = 0 ∧ (tctrBusy 4 []).script = [] := by decide

theorem witness_StepTakesTheHostsNextEvent :
    let idle := { State.reset with script := [HostOp.poll] }
    idle.faults = [] ∧ idle.script = .poll :: [] ∧ idle.phase = .idle ∧ (tctrBusy 1 [.poll]).faults = [] ∧
    (tctrBusy 1 [.poll]).script = .poll :: [] ∧ (tctrBusy 1 [.poll]).phase = .busy 0x10#32 ∧
    (tctrBusy 1 [.poll]).delay = 0 + 1 ∧
    State.reset.faults = [] ∧ State.reset.phase = .idle ∧ State.reset.script = [] := by decide

/-- Every command that can fail, failing. -/
theorem witness_FailingCommandWritesOnlyItsReport :
    ([(Instr.b32enc, { State.reset with inLen := 321#16 }), (.b32dec true, loaded (text "MY")),
      (.tctr, { State.reset with period := 0#32 }), (.dtrunc .sha1, State.reset), (.modr 0, State.reset),
      (.decfmt 11, State.reset), (.otpfin .unsupported 1, State.reset)].all fun e =>
        (nextOf (exec e.1 e.2)).any fun t => t.err) = true := by decide

/-- Every command succeeding. -/
theorem witness_SuccessfulCommandClearsTheReport :
    ([(Instr.b32enc, State.reset), (.b32dec false, State.reset), (.tctr, State.reset), (.ctrser, State.reset),
      (.dtrunc .sha1, loaded digest1), (.modr 1, State.reset), (.decfmt 10, State.reset),
      (.otpfin .sha1 10, loaded digest1)].all fun e => (nextOf (exec e.1 e.2)).any fun t => !t.err) = true := by decide

/-- Each row of R85 that names a command occurs, with its detail, with legal parameters. -/
theorem witness_CommandsReportOnlyTheirErrors :
    (capped 1024 512).cfg.Legal ∧ (capped 64 12).cfg.Legal ∧
    ([(Instr.b32enc, { State.reset with inLen := 321#16 }, 8#4, 321#16),
      (.b32enc, { capped 1024 512 with inLen := 321#16 }, 9#4, 520#16),
      (.b32dec false, loaded (text "1"), 1#4, 0#16), (.b32dec true, loaded (text "========"), 2#4, 8#16),
      (.b32dec false, filled 0x41#8 21 (capped 64 12), 9#4, 13#16),
      (.tctr, { State.reset with period := 0#32 }, 3#4, 0#16), (.dtrunc .unsupported, State.reset, 5#4, 3#16),
      (.decfmt 15, State.reset, 4#4, 15#16), (.otpfin .sha512 10, State.reset, 8#4, 0#16)].all fun e =>
        (nextOf (exec e.1 e.2.1)).any fun t => t.err && t.errCode == e.2.2.1 && t.errInfo == e.2.2.2) = true := by decide

/-- Both branches: a failure, and a success that writes results. -/
theorem witness_CommandsChangeOnlyTheirRow :
    (loaded digest1).cfg.Legal ∧
    (nextOf (exec (.otpfin .sha1 8) (loaded digest1))).map (·.err) = some false ∧
    (nextOf (exec (.otpfin .sha1 11) (loaded digest1))).map (·.err) = some true := by decide

/-- Two different states that agree on what the command reads; one ends in a next state, one in a fault. -/
theorem witness_ResultsDependOnlyOnWhatIsRead :
    AgreeOnReads .tctr State.reset { State.reset with ctr := 7#64, inLen := 9#16 } ∧
    (nextOf (exec .tctr State.reset)).isSome = true ∧
    AgreeOnReads .b32enc { State.reset with inLen := 1#16 } { State.reset with inLen := 1#16, val := 5#32 } ∧
    faultOf (exec .b32enc { State.reset with inLen := 1#16 }) = some (.unwrittenInput 0) := by
  unfold AgreeOnReads; decide

theorem reset_state_inv : State.reset.Inv :=
  ⟨by decide, by decide, nofun, by decide⟩

theorem busy_state_inv : (tctrBusy 1 [.poll]).Inv :=
  ⟨by decide, by decide, fun _ h => by cases h; decide, by decide⟩

theorem witness_RepeatingACommandChangesNothing :
    State.reset.Inv ∧ (nextOf (exec .ctrser State.reset)).map (·.err) = some false ∧
    (nextOf (exec (.modr 0) State.reset)).map (·.err) = some true :=
  ⟨reset_state_inv, by decide⟩

/-- The lowest unwritten byte is not the first: section 2.1, IN_LEN = 5 with one word written. -/
theorem witness_CommandsStopOnlyOnUnwrittenInput :
    let s := { loaded (text "Cat!") with inLen := 5#16 }
    faultOf (exec .b32enc s) = some (.unwrittenInput 4) ∧ FirstUnwritten s (consumed .b32enc s) 4 := by
  decide

theorem witness_AlphabetAndFoldingAreTheTables :
    symVal 0x37#8 = some 31#5 ∧ symVal 0x38#8 = none ∧ (fold 0x7A#8).toNat = 0x5A ∧ (fold 0x7B#8).toNat = 0x7B := by
  decide

/-- The clauses of B32encRule at their boundaries: IN_LEN one above IN_CAP, a result one block above OUT_CAP, the largest
input and the largest result, an unwritten last byte, a real chunk and the first filler chunk. -/
theorem witness_B32encRule :
    (capped 64 104).cfg.inCap < 65 ∧
    (let s := filled 0xA5#8 64 (capped 64 100)
     s.inLen.toNat ≤ s.cfg.inCap ∧ s.cfg.outCap < 8 * ((s.inLen.toNat + 4) / 5)) ∧
    (let s := filled 0xA5#8 64 (capped 64 104)
     s.inLen.toNat = s.cfg.inCap ∧ 8 * ((s.inLen.toNat + 4) / 5) = s.cfg.outCap ∧ Written s s.inLen.toNat) ∧
    (let s := { filled 0xA5#8 63 (capped 64 104) with inLen := 64#16 }
     FirstUnwritten s s.inLen.toNat 63) ∧
    Written State.reset State.reset.inLen.toNat ∧
    (5 * 1 < 8 * 1 ∧ ¬ 5 * 2 < 8 * 1) := by
  decide +kernel

/-- The first clauses of B32decRule: IN_LEN one above IN_CAP, an unwritten last byte, a bad character after two good ones
and before a pad run. -/
theorem witness_B32decRule_input :
    (capped 64 12).cfg.inCap < 65 ∧
    (let s := { loaded (text "MY======") with inLen := 9#16 }
     s.inLen.toNat ≤ s.cfg.inCap ∧ FirstUnwritten s s.inLen.toNat 8) ∧
    (let s := loaded (text "MY=A====")
     s.inLen.toNat = 8 ∧ Written s 8 ∧ IsPadRun s 8 4 ∧ symbolAt s 2 = none ∧ AllSymbols s 2 ∧ 2 < 8 - 4) := by
  decide +kernel

/-- InvalidPadding in B32decRule: a pad run of the whole input, a length that is no multiple of 8; and a legal text without
padding. -/
theorem witness_B32decRule_padding :
    (let s := loaded (text "========")
     s.inLen.toNat = 8 ∧ Written s 8 ∧ IsPadRun s 8 8 ∧ ¬ PaddingLegal 8 8 ∧ AllSymbols s (8 - 8)) ∧
    (let s := loaded (text "MY")
     s.inLen.toNat = 2 ∧ Written s 2 ∧ IsPadRun s 2 0 ∧ ¬ PaddingLegal 2 0 ∧ AllSymbols s 2) ∧
    (let s := loaded (text "MZXW6YTB")
     s.inLen.toNat = 8 ∧ Written s 8 ∧ IsPadRun s 8 0 ∧ PaddingLegal 8 0 ∧ AllSymbols s 8) := by
  decide +kernel

/-- The room clauses of B32decRule: a result of OUT_CAP bytes, and one byte more. -/
theorem witness_B32decRule_room :
    (let s := filled 0x41#8 20 (capped 64 12)
     s.inLen.toNat = 20 ∧ Written s 20 ∧ IsPadRun s 20 0 ∧ AllSymbols s 20 ∧ 5 * (20 - 0) / 8 = s.cfg.outCap) ∧
    (let s := filled 0x41#8 21 (capped 64 12)
     s.inLen.toNat = 21 ∧ Written s 21 ∧ IsPadRun s 21 0 ∧ AllSymbols s 21 ∧ s.cfg.outCap + 1 = 5 * (21 - 0) / 8) := by
  decide +kernel

/-- The longest round trip: 40 bytes at IN_CAP = 64, whose text fills IN. -/
theorem witness_Base32RoundTrip :
    let s := filled 0xA5#8 40 (capped 64 64)
    s.cfg.Legal ∧ s.inLen.toNat ≤ s.cfg.inCap ∧ Written s s.inLen.toNat ∧
    8 * ((s.inLen.toNat + 4) / 5) = s.cfg.outCap ∧ 8 * ((s.inLen.toNat + 4) / 5) = s.cfg.inCap := by
  decide +kernel

/-- A state whose folding differs from it, decoding well. -/
theorem witness_DecodingIgnoresLetterCase :
    (loaded (text "inqxi===")).inBuf.map (fun c => (c.1, fold c.2)) = (loaded (text "INQXI===")).inBuf := by decide

theorem witness_TctrRule :
    ({ State.reset with period := 0#32 }).period.toNat = 0 ∧ ({ State.reset with period := 1#32 }).period.toNat ≠ 0 := by
  decide

/-- Each algorithm: the right length, written and with its last byte unwritten, and a length that is one off. -/
theorem witness_DtruncRule :
    (algorithms.all fun e =>
      let n := e.2.2
      let s := filled 0x0F#8 n State.reset
      let u := { filled 0x0F#8 (n - 1) State.reset with inLen := BitVec.ofNat 16 n }
      decide (s.inLen.toNat = n) && decide (Written s n) && decide (u.inLen.toNat = n) && decide (FirstUnwritten u n (n - 1)) &&
        decide ((filled 0x0F#8 (n + 1) State.reset).inLen.toNat ≠ n)) = true := by
  decide +kernel

/-- The digit counts at the ends of both clauses, all fields of four bits. -/
theorem witness_ModrRule :
    (∀ d ∈ [0, 11, 15], d < 16 ∧ (d = 0 ∨ 10 < d)) ∧ ∀ d ∈ [1, 10], d < 16 ∧ 1 ≤ d ∧ d ≤ 10 := by decide

theorem witness_DecfmtRule :
    (∀ d ∈ [0, 11, 15], d < 16 ∧ (d = 0 ∨ 10 < d)) ∧ ∀ d ∈ [1, 10], d < 16 ∧ 1 ≤ d ∧ d ≤ 10 := by decide

/-- The state conditions of OtpfinRule, with digit counts at the ends of their clauses. -/
theorem witness_OtpfinRule :
    (∀ d ∈ [0, 11, 15], d < 16 ∧ (d = 0 ∨ 10 < d)) ∧ (∀ d ∈ [1, 10], d < 16 ∧ 1 ≤ d ∧ d ≤ 10) ∧
    (∀ e ∈ algorithms, Written (filled 0x0F#8 e.2.2 State.reset) e.2.2 ∧
      (filled 0x0F#8 e.2.2 State.reset).inLen.toNat = e.2.2 ∧
      FirstUnwritten { State.reset with inLen := BitVec.ofNat 16 e.2.2 } e.2.2 0) ∧
    (loaded (ramp 19 0#8)).inLen.toNat ≠ 20 := by
  decide +kernel

theorem witness_OtpfinIsTheThreeInSequence :
    let s := loaded digest1
    let a := after s (exec (.dtrunc .sha1) s)
    let b := after a (exec (.modr 8) a)
    let c := after b (exec (.decfmt 8) b)
    nextOf (exec (.dtrunc .sha1) s) = some a ∧ a.err = false ∧ nextOf (exec (.modr 8) a) = some b ∧ b.err = false ∧
    nextOf (exec (.decfmt 8) b) = some c ∧ c.err = false := by decide

theorem witness_TruncatorResultsAreInRange :
    ([(Instr.dtrunc .sha1, loaded digest1), (.modr 10, { State.reset with val := 0xFFFFFFFF#32 }),
      (.decfmt 10, { State.reset with code := 0xFFFFFFFF#32 }), (.otpfin .sha1 10, loaded digest1)].all fun e =>
        (nextOf (exec e.1 e.2)).map (·.err) == some false) = true := by decide

theorem witness_CmdWriteStartsACommand :
    State.reset.phase = .idle ∧ (tctrBusy 1 [.poll]).phase = .busy 0x10#32 := by decide

theorem witness_RegisterWritesStoreTheirValue : State.reset.phase = .idle := by decide

theorem witness_RegisterReadsShowTheirValue :
    State.reset.phase = .idle ∧ (0x000, 0x42333252#32) ∈ registerWords State.reset ∧
    (0x034, State.reset.code) ∈ registerWords State.reset := by decide

/-- The first and the last word of IN. -/
theorem witness_InWordWriteStoresFourBytes :
    State.reset.cfg.Legal ∧ State.reset.phase = .idle ∧ 4 * 0 < State.reset.cfg.inCap ∧ 4 * 79 < State.reset.cfg.inCap ∧
    ¬ 4 * 80 < State.reset.cfg.inCap := by decide

/-- The first and the last word of each buffer, with written bytes. -/
theorem witness_BufferWordReadsPackTheBytes :
    let s := { loaded (text "Cat!") with outBuf := [(508, 1#8), (511, 2#8)] }
    s.cfg.Legal ∧ s.phase = .idle ∧ 3 < 4 ∧ 4 * 79 < s.cfg.inCap ∧ 4 * 127 < s.cfg.outCap ∧
    s.inBuf.read (4 * 0 + 3) = some 0x21#8 ∧ s.outBuf.read (4 * 127 + 3) = some 2#8 := by decide

/-- Each ground of R40 at the ends of its ranges: misaligned, a wrong width, reserved, read-only. -/
theorem witness_RefusedAccessChangesNoState :
    State.reset.cfg.Legal ∧ State.reset.phase = .idle ∧
    (∀ off ∈ [0x001, 0x002, 0x003, 0x038, 0x3FC, 0x540, 0x7FC, 0xA00, 0xFFC], off < 4096 ∧
      ¬ Readable State.reset.cfg off ∧ ¬ Writable State.reset.cfg off) ∧
    (∀ off ∈ [0x000, 0x008, 0x00C, 0x010, 0x018, 0x800, 0x9FC], ¬ Writable State.reset.cfg off) ∧
    ¬ (2 = 4 ∧ Readable State.reset.cfg 0x000) := by
  decide

/-- The ends of the permitted ranges. -/
theorem witness_OtherAccessesArePermitted :
    State.reset.cfg.Legal ∧ State.reset.phase = .idle ∧
    (∀ off ∈ [0x000, 0x034, 0x400, 0x53C, 0x800, 0x9FC], Readable State.reset.cfg off) ∧
    ∀ off ∈ [0x004, 0x014, 0x01C, 0x034, 0x400, 0x53C], Writable State.reset.cfg off := by
  decide

/-- Two reads of an unwritten IN word, and of an OUT word whose bytes have been written. -/
theorem witness_RepeatedReadsAgree :
    (let s := State.reset
     let t := after s (hostStep (.read 0x400 4) s)
     s.cfg.Legal ∧ s.phase = .idle ∧ 0x400 < 0x800 ∧ Readable s.cfg 0x400 ∧
       (nextOf (hostStep (.read 0x400 4) s)).isSome = true ∧ (nextOf (hostStep (.read 0x400 4) t)).isSome = true) ∧
    (let s := after .reset (exec .ctrser State.reset)
     s.phase = .idle ∧ (∀ j, j < 4 → (s.outBuf.read (0x800 - 0x800 + j)).isSome = true) ∧ Readable s.cfg 0x800 ∧
       (nextOf (hostStep (.read 0x800 4) s)).isSome = true) := by
  decide

theorem witness_WriteWhileBusyIsAHazard : (tctrBusy 1 [.poll]).phase = .busy 0x10#32 ∧ 0xFFF < 4096 := by decide

theorem witness_ReadsWhileBusy :
    (tctrBusy 1 [.poll]).Inv ∧ (tctrBusy 1 [.poll]).phase = .busy 0x10#32 ∧ Readable (tctrBusy 1 [.poll]).cfg 0x9FC :=
  ⟨busy_state_inv, by decide, by decide⟩

/-- The addresses beside the window, on both sides. -/
theorem witness_AccessOutsideTheWindowIsNotTheBlocks :
    let s := State.resetWith { inCap := 320, outCap := 512, base := 4096 }
    4095 < s.cfg.base ∧ s.cfg.base + 4096 ≤ 8192 := by decide

/-- A step from a state with the invariant: the host's event, and Complete. -/
theorem witness_StepKeepsTheInvariant :
    (tctrBusy 1 [.poll]).Inv ∧ (nextOf (step (tctrBusy 1 [.poll]))).isSome = true ∧
    (nextOf (step (tctrBusy 0 [.poll]))).map (·.done) = some true ∧ State.reset.Inv :=
  ⟨busy_state_inv, by decide, by decide, reset_state_inv⟩

theorem witness_ResetHasTheInvariant : ({ inCap := 1024, outCap := 12, base := 8192 } : Config).Legal := by decide

/-- Each of the three ends: Complete, a reset, and a read. -/
theorem witness_CommandInProgressIsNotChanged :
    (nextOf (step (tctrBusy 0 []))).map (·.done) = some true ∧
    (nextOf (step (tctrBusy 1 [.reset]))).map (·.phase) = some .idle ∧
    (nextOf (step (tctrBusy 1 [.read 0x008 4]))).map (·.phase) = some (.busy 0x10#32) := by decide

/-- A write to IN, and a reset, that change IN. -/
theorem witness_OnlyTheHostWritesIn :
    let s := { State.reset with script := [HostOp.write 0x400 4 1#32] }
    let r := { loaded (text "f") with script := [HostOp.reset] }
    (nextOf (step s)).any (fun t => t.inBuf != s.inBuf) = true ∧
    (nextOf (step r)).any (fun t => t.inBuf != r.inBuf) = true := by decide

/-- Each clause: an event that records a fault, a completion with a fault recorded, a fault that stops the step. -/
theorem witness_FaultsAndParametersAreNeverCleared :
    (nextOf (hostStep (.read 1 4) State.reset)).map (·.faults) = some [.busError 1#12] ∧
    (nextOf (complete 0x10#32 { State.reset with faults := [.busError 1#12] })).isSome = true ∧
    Fault.busError 1#12 ∈ ({ State.reset with faults := [.busError 1#12] }).faults := by decide

theorem witness_PollEndsWithTheCompletion :
    (tctrBusy 7 [.poll]).faults = [] ∧ (tctrBusy 7 [.poll]).phase = .busy 0x10#32 ∧ (tctrBusy 7 [.poll]).script = [.poll] ∧
    (nextOf (complete 0x10#32 (tctrBusy 7 [.poll]))).isSome = true := by decide

end Sys2Proof.Tests
end

/-! How a command ends: what a command with agreeing reads answers, said once for all eight commands (10_state.md R35). -/

section

namespace Sys2Proof.Proofs

open Sys2Proof.Machine Sys2Proof.Machine.Laws Sys2Proof.Claims

variable {i : Instr} {s t : State} {n : Nat}

/-! ### Endings -/

/-- The results of a successful command: the values of the columns its row of R35 marks as written. -/
def Results : Instr → Type
  | .b32enc => List Byte
  | .b32dec _ => List Byte
  | .tctr => DWord
  | .ctrser => List Byte
  | .dtrunc _ => Word
  | .modr _ => Word
  | .decfmt _ => List Byte
  | .otpfin _ _ => Word × Word × List Byte

/-- Write the results of a command: VAL, CODE and the bytes of OUT, in this order, for OTPFIN. -/
def writeResults : (i : Instr) → Results i → State → State
  | .b32enc, bs, s => writeOut bs s
  | .b32dec _, bs, s => writeOut bs s
  | .tctr, v, s => writeCtr v s
  | .ctrser, bs, s => writeOut bs s
  | .dtrunc _, v, s => writeVal v s
  | .modr _, v, s => writeCode v s
  | .decfmt _, bs, s => writeOut bs s
  | .otpfin _ _, (v, c, bs), s => writeOut bs (writeCode c (writeVal v s))

/-- The bytes a command's results put in OUT; none for the commands that leave OUT alone. -/
def resultBytes : (i : Instr) → Results i → List Byte
  | .b32enc, bs => bs
  | .b32dec _, bs => bs
  | .tctr, _ => []
  | .ctrser, bs => bs
  | .dtrunc _, _ => []
  | .modr _, _ => []
  | .decfmt _, bs => bs
  | .otpfin _ _, (_, _, bs) => bs

/-- How a command ends: a model fault, the report of a failure, or success with results. -/
inductive Ending (i : Instr) where
  | stop (f : Fault)
  | report (e : ErrorKind) (info : Nat)
  | done (r : Results i)

/-- What a command that ends so answers on a state. -/
def Ending.apply : Ending i → State → Result
  | .stop f, _ => .fault f
  | .report e info, s => .next (raiseError e info s)
  | .done r, s => .next (succeed (writeResults i r s))

/-- The results fit OUT, whose capacity is at least 10 (00_scope.md R6). -/
def Ending.Fits (c : Config) : Ending i → Prop
  | .stop _ => True
  | .report _ _ => True
  | .done r => (resultBytes i r).length ≤ max 10 c.outCap

/-- `k` ends one and the same way, with results that fit OUT, on every state that agrees with `s` on the reads of `i`. -/
def EndsAlike (i : Instr) (s : State) (k : State → Result) : Prop :=
  ∃ e : Ending i, e.Fits s.cfg ∧ ∀ s', AgreeOnReads i s s' → k s' = e.apply s'

/-- The row of `i` in R35 reads IN_LEN and the bytes of IN it counts. -/
def ReadsInput (i : Instr) (s : State) : Prop :=
  ∀ s', AgreeOnReads i s s' → s.inLen = s'.inLen ∧ ∀ a, a < s.inLen.toNat → s.inBuf.read a = s'.inBuf.read a

theorem agreeOnReads_refl (i : Instr) (s : State) : AgreeOnReads i s s := by
  cases i <;> simp [AgreeOnReads]

/-- A run of bytes reads alike from two buffers that agree on it. -/
theorem readBytes_congr {m m' : Memory} {a : Nat} (h : ∀ x, a ≤ x → x < a + n → m.read x = m'.read x) :
    m.readBytes a n = m'.readBytes a n := by
  induction n generalizing a with
  | zero => rfl
  | succ n ih =>
    have hrest : m.readBytes (a + 1) n = m'.readBytes (a + 1) n := ih fun x h₁ h₂ => h x (by omega) (by omega)
    simp only [Memory.readBytes, h a le_rfl (by omega), hrest]

/-! ### Endings of the operand forms -/

/-- Only what `k` answers on the agreeing states matters. -/
theorem EndsAlike.congr {k k' : State → Result} (hk : EndsAlike i s k')
    (h : ∀ s', AgreeOnReads i s s' → k s' = k' s') : EndsAlike i s k := by
  obtain ⟨e, hfits, he⟩ := hk
  exact ⟨e, hfits, fun s' hs => (h s' hs).trans (he s' hs)⟩

theorem endsAlike_report (e : ErrorKind) (info : Nat) : EndsAlike i s (fun s' => .next (raiseError e info s')) :=
  ⟨.report e info, trivial, fun _ _ => rfl⟩

theorem endsAlike_done (r : Results i) (h : (resultBytes i r).length ≤ max 10 s.cfg.outCap) :
    EndsAlike i s (fun s' => .next (succeed (writeResults i r s'))) :=
  ⟨.done r, h, fun _ _ => rfl⟩

theorem withInput_endsAlike {k : State → List Byte → Result} (hin : ReadsInput i s) (hn : n ≤ s.inLen.toNat)
    (hk : ∀ bs, bs.length = n → EndsAlike i s (k · bs)) : EndsAlike i s (fun s' => withInput n s' (k s')) := by
  have hread : ∀ s', AgreeOnReads i s s' → s'.inBuf.readBytes 0 n = s.inBuf.readBytes 0 n := fun s' hs =>
    (readBytes_congr fun x _ hx => (hin s' hs).2 x (by omega)).symm
  cases hb : s.inBuf.readBytes 0 n with
  | error j =>
    exact ⟨.stop (.unwrittenInput j), trivial, fun s' hs => by simp [withInput, hread s' hs, hb, Ending.apply]⟩
  | ok bs =>
    obtain ⟨hlen, -⟩ := (readBytes_eq_ok_iff ..).mp hb
    exact (hk bs hlen).congr fun s' hs => by simp [withInput, hread s' hs, hb]

theorem withInLen_endsAlike {k : State → Nat → Result} (hin : ReadsInput i s)
    (hk : EndsAlike i s (k · s.inLen.toNat)) : EndsAlike i s (fun s' => withInLen s' (k s')) := by
  by_cases h : s.cfg.inCap < s.inLen.toNat
  · exact (endsAlike_report .badLength s.inLen.toNat).congr fun s' hs => by
      simp [withInLen, ← (hin s' hs).1, ← hs.1, h]
  · exact hk.congr fun s' hs => by simp [withInLen, ← (hin s' hs).1, ← hs.1, h]

theorem withRoom_endsAlike {k : State → Unit → Result} (hk : n ≤ s.cfg.outCap → EndsAlike i s (k · ())) :
    EndsAlike i s (fun s' => withRoom n s' (k s')) := by
  by_cases h : s.cfg.outCap < n
  · exact (endsAlike_report .outOverflow n).congr fun s' hs => by simp [withRoom, ← hs.1, h]
  · exact (hk (not_lt.mp h)).congr fun s' hs => by simp [withRoom, ← hs.1, h]

theorem withDigits_endsAlike {d : Nat} {k : State → Unit → Result} (hk : DigitsSupported d → EndsAlike i s (k · ())) :
    EndsAlike i s (fun s' => withDigits d s' (k s')) := by
  by_cases h : DigitsSupported d
  · exact (hk h).congr fun s' _ => if_pos h
  · exact (endsAlike_report .invalidDigitCount d).congr fun s' _ => if_neg h

theorem withAlg_endsAlike {alg : HashAlg} {k : State → Nat → Result} (hk : ∀ n, EndsAlike i s (k · n)) :
    EndsAlike i s (fun s' => withAlg alg s' (k s')) := by
  cases h : digestLength alg with
  | none => exact (endsAlike_report .unsupportedAlgorithm 3).congr fun s' _ => by simp [withAlg, h]
  | some n => exact (hk n).congr fun s' _ => by simp [withAlg, h]

theorem withDigest_endsAlike {k : State → List Byte → Result} (hin : ReadsInput i s)
    (hk : ∀ bs, EndsAlike i s (k · bs)) : EndsAlike i s (fun s' => withDigest n s' (k s')) := by
  by_cases h : s.inLen.toNat = n
  · exact (withInput_endsAlike hin h.ge fun bs _ => hk bs).congr fun s' hs => by
      simp [withDigest, ← (hin s' hs).1, h]
  · exact (endsAlike_report .badLength s.inLen.toNat).congr fun s' hs => by
      simp [withDigest, ← (hin s' hs).1, h]

/-! ### Endings of the commands -/

theorem symValues_length {j : Nat} {cs : List Byte} {vs : List Sym} (h : symValues j cs = .ok vs) :
    vs.length = cs.length := by
  simpa using (congrArg List.length ((symValues_eq_ok_iff ..).mp h)).symm

theorem execB32enc_endsAlike : EndsAlike .b32enc s execB32enc :=
  have hin : ReadsInput .b32enc s := fun _ hs => hs.2
  withInLen_endsAlike hin <| withRoom_endsAlike fun hroom => withInput_endsAlike hin le_rfl fun bs hlen =>
    endsAlike_done (i := .b32enc) (encodeBytes bs) (by simp [resultBytes, hlen, hroom])

theorem execB32dec_endsAlike (strict : Bool) : EndsAlike (.b32dec strict) s (execB32dec strict) := by
  have hin : ReadsInput (.b32dec strict) s := fun _ hs => hs.2
  refine withInLen_endsAlike hin <| withInput_endsAlike hin le_rfl fun bs hlen => ?_
  cases hsym : symValues 0 (bs.take (s.inLen.toNat - padRun bs)) with
  | error j => exact (endsAlike_report .invalidCharacter j).congr fun s' _ => by simp only [hsym]
  | ok vs =>
    by_cases hpad : strict = true ∧ ¬ StrictOK s.inLen.toNat (padRun bs)
    · exact (endsAlike_report .invalidPadding (padRun bs)).congr fun s' _ => by simp only [hsym, if_pos hpad]
    · have hbytes : (packBits (symBits vs)).length = decodedLength (s.inLen.toNat - padRun bs) := by
        simp [symValues_length hsym, hlen, decodedLength]
      have hdone : EndsAlike (.b32dec strict) s fun s' =>
          withRoom (decodedLength (s.inLen.toNat - padRun bs)) s' fun _ =>
            .next (succeed (writeOut (packBits (symBits vs)) s')) :=
        withRoom_endsAlike fun hroom =>
          endsAlike_done (i := .b32dec strict) (packBits (symBits vs)) (by simp [resultBytes, hbytes, hroom])
      exact hdone.congr fun s' _ => by simp only [hsym, if_neg hpad]

theorem execTctr_endsAlike : EndsAlike .tctr s execTctr := by
  by_cases h : s.period = 0#32
  · exact (endsAlike_report .invalidPeriod 0).congr fun s' hs => by simp [execTctr, ← hs.2.2, h]
  · refine (endsAlike_done (i := .tctr) (BitVec.ofNat 64 (s.t.toNat / s.period.toNat)) (by simp [resultBytes])).congr
      fun s' hs => ?_
    obtain ⟨-, ht, hperiod⟩ := hs
    simp only [execTctr, ← ht, ← hperiod, if_neg h, writeResults]

theorem execCtrser_endsAlike : EndsAlike .ctrser s execCtrser := by
  refine (endsAlike_done (i := .ctrser) (counterBytes s.ctr) (by simp [resultBytes])).congr fun s' hs => ?_
  simp only [execCtrser, show s.ctr = s'.ctr from hs.2, writeResults]

theorem execDtrunc_endsAlike (alg : HashAlg) : EndsAlike (.dtrunc alg) s (execDtrunc alg) :=
  withAlg_endsAlike fun _ => withDigest_endsAlike (fun _ hs => hs.2) fun bs =>
    endsAlike_done (i := .dtrunc alg) (truncatedValue bs) (by simp [resultBytes])

theorem execModr_endsAlike (d : Nat) : EndsAlike (.modr d) s (execModr d) :=
  withDigits_endsAlike fun _ =>
    (endsAlike_done (i := .modr d) (reduceDigits s.val d) (by simp [resultBytes])).congr fun s' hs => by
      simp only [show s.val = s'.val from hs.2, writeResults]

theorem execDecfmt_endsAlike (d : Nat) : EndsAlike (.decfmt d) s (execDecfmt d) :=
  withDigits_endsAlike fun hd =>
    (endsAlike_done (i := .decfmt d) (decimalChars (s.code.toNat % 10 ^ d) d) (by simp [resultBytes, hd.2])).congr
      fun s' hs => by simp only [show s.code = s'.code from hs.2, writeResults]

theorem execOtpfin_endsAlike (alg : HashAlg) (d : Nat) : EndsAlike (.otpfin alg d) s (execOtpfin alg d) :=
  withAlg_endsAlike fun _ => withDigits_endsAlike fun hd => withDigest_endsAlike (fun _ hs => hs.2) fun bs =>
    let v := truncatedValue bs
    let c := reduceDigits v d
    endsAlike_done (i := .otpfin alg d) (v, c, decimalChars c.toNat d) (by simp [resultBytes, hd.2])

/-- R35, R79, R84: every command ends alike on all states that agree on what its row reads. -/
theorem exec_endsAlike (i : Instr) (s : State) : EndsAlike i s (exec i) := by
  cases i with
  | b32enc => exact execB32enc_endsAlike
  | b32dec strict => exact execB32dec_endsAlike strict
  | tctr => exact execTctr_endsAlike
  | ctrser => exact execCtrser_endsAlike
  | dtrunc alg => exact execDtrunc_endsAlike alg
  | modr d => exact execModr_endsAlike d
  | decfmt d => exact execDecfmt_endsAlike d
  | otpfin alg d => exact execOtpfin_endsAlike alg d

/-- Every next state of a command: its report, or success with the results of its row, which fit OUT. -/
theorem exec_next (h : exec i s = .next t) :
    (∃ e info, t = raiseError e info s) ∨
    ∃ r, t = succeed (writeResults i r s) ∧ (resultBytes i r).length ≤ max 10 s.cfg.outCap := by
  obtain ⟨e, hfits, he⟩ := exec_endsAlike i s
  rw [he s (agreeOnReads_refl i s)] at h
  cases e with
  | stop f => cases h
  | report e info => cases h; exact .inl ⟨e, info, rfl⟩
  | done r => cases h; exact .inr ⟨r, rfl, hfits⟩

end Sys2Proof.Proofs

end
/-! The frame and the report of every command, and what a command leaves of the invariant (10_state.md R19, R32, R35,
R50). -/

section

namespace Sys2Proof.Proofs

open Sys2Proof.Machine Sys2Proof.Machine.Laws Sys2Proof.Claims

variable {i : Instr} {s t : State} {bs : List Byte}

/-! ### The report and the frame of a command -/

/-- STATUS of an idle block: DONE in bit 1, ERR in bit 2, the others 0 (R19). -/
theorem statusWord_idle (h : s.phase = .idle) :
    statusWord s = BitVec.ofNat 32 ((if s.done then 2 else 0) + (if s.err then 4 else 0)) := by
  rw [statusWord, isBusy_of_idle h]
  cases s.err <;> cases s.done <;> rfl

/-- Settles O8: a command that leaves ERR clear ended with success, which fixes the whole report. -/
theorem successfulCommandClearsTheReport : Obligations.SuccessfulCommandClearsTheReport := by
  intro i s t h herr
  rcases exec_ends h with ⟨e, info, rfl⟩ | ⟨r, rfl, -⟩
  · simp at herr
  · exact ⟨rfl, statusWord_idle rfl, rfl, rfl⟩

/-- A length that fits OUT is held in full by the 16 bits of OUT_LEN (R6, R23). -/
theorem outLen_writeOut (h : bs.length ≤ 2048) : (writeOut bs s).outLen.toNat = bs.length := by
  rw [writeOut_outLen, BitVec.toNat_ofNat, Nat.mod_eq_of_lt (by omega)]

/-- OUT bytes at OUT_LEN and above are unchanged (R31). -/
theorem read_writeOut_above {a : Nat} (h : bs.length ≤ 2048) (ha : (writeOut bs s).outLen.toNat ≤ a) :
    (writeOut bs s).outBuf.read a = s.outBuf.read a := by
  rw [outLen_writeOut h] at ha
  exact read_writeBytes_outside (by omega)

theorem changesOnlyItsRow_raiseError (i : Instr) (e : ErrorKind) (info : Nat) (s : State) :
    ChangesOnlyItsRow i s (raiseError e info s) :=
  rfl

theorem changesOnlyItsRow_succeed (r : Results i) (hr : (resultBytes i r).length ≤ 2048) :
    ChangesOnlyItsRow i s (succeed (writeResults i r s)) := by
  cases i with
  | b32enc => exact ⟨rfl, fun a => read_writeOut_above hr⟩
  | b32dec strict => exact ⟨rfl, fun a => read_writeOut_above hr⟩
  | tctr => exact rfl
  | ctrser => exact ⟨rfl, fun a => read_writeOut_above hr⟩
  | dtrunc alg => exact rfl
  | modr d => exact rfl
  | decfmt d => exact ⟨rfl, fun a => read_writeOut_above hr⟩
  | otpfin alg d => exact ⟨rfl, fun a => read_writeOut_above (s := writeCode r.2.1 (writeVal r.1 s)) hr⟩

/-- Settles O10: a report touches its own five fields, and the results of a command the columns of its row. -/
theorem commandsChangeOnlyTheirRow : Obligations.CommandsChangeOnlyTheirRow := by
  intro i s t hlegal h
  rcases exec_next h with ⟨e, info, rfl⟩ | ⟨r, rfl, hr⟩
  · exact changesOnlyItsRow_raiseError i e info s
  · exact changesOnlyItsRow_succeed r (by omega)

/-! ### Results are a function of what is read -/

theorem outBuf_writeOut_agree {s' : State} {a : Nat} (ha : a < (writeOut bs s).outLen.toNat) :
    (writeOut bs s).outBuf.read a = (writeOut bs s').outBuf.read a := by
  have hlen : a < bs.length := lt_of_lt_of_le ha (Nat.mod_le _ _)
  simp only [writeOut_outBuf]
  rw [read_writeBytes_inside (by omega) (by omega), read_writeBytes_inside (by omega) (by omega)]

theorem agreeOnResults_raiseError (i : Instr) (e : ErrorKind) (info : Nat) (s s' : State) :
    AgreeOnResults i (raiseError e info s) (raiseError e info s') := by
  simp [AgreeOnResults]

theorem agreeOnResults_succeed (r : Results i) (s s' : State) :
    AgreeOnResults i (succeed (writeResults i r s)) (succeed (writeResults i r s')) := by
  refine ⟨rfl, rfl, rfl, fun _ => ?_⟩
  cases i with
  | b32enc => exact ⟨rfl, fun a => outBuf_writeOut_agree⟩
  | b32dec strict => exact ⟨rfl, fun a => outBuf_writeOut_agree⟩
  | tctr => exact rfl
  | ctrser => exact ⟨rfl, fun a => outBuf_writeOut_agree⟩
  | dtrunc alg => exact rfl
  | modr d => exact rfl
  | decfmt d => exact ⟨rfl, fun a => outBuf_writeOut_agree⟩
  | otpfin alg d =>
    obtain ⟨v, c, bs⟩ := r
    exact ⟨rfl, rfl, rfl, fun a => outBuf_writeOut_agree (s := writeCode c (writeVal v s))⟩

/-- Settles O11: both runs have the same ending, and an ending's report and results are its own. -/
theorem resultsDependOnlyOnWhatIsRead : Obligations.ResultsDependOnlyOnWhatIsRead := by
  intro i s s' hagree
  obtain ⟨e, -, he⟩ := exec_endsAlike i s
  rw [he s (agreeOnReads_refl i s), he s' hagree]
  cases e with
  | stop f => exact ⟨fun _ hf => hf, nofun⟩
  | report e info =>
    refine ⟨nofun, fun t ht => ⟨_, rfl, ?_⟩⟩
    cases ht
    exact agreeOnResults_raiseError i e info s s'
  | done r =>
    refine ⟨nofun, fun t ht => ⟨_, rfl, ?_⟩⟩
    cases ht
    exact agreeOnResults_succeed r s s'

/-! ### The invariant: the named updates of the state -/

theorem errorCode_ne_zero (e : ErrorKind) : errorCode e ≠ 0#4 := by cases e <;> decide

theorem errorCode_mem (e : ErrorKind) : errorCode e ∈ [0#4, 1#4, 2#4, 3#4, 4#4, 5#4, 7#4, 8#4, 9#4] := by
  cases e <;> decide

theorem inv_raiseError (h : s.Inv) (e : ErrorKind) (info : Nat) : (raiseError e info s).Inv where
  cfg := h.cfg
  report := ⟨fun _ => rfl, fun _ herr => by simp at herr, fun _ => errorCode_ne_zero e, errorCode_mem e⟩
  phase := fun w hw => by simp at hw
  buffers := h.buffers

theorem inv_succeed (h : s.Inv) : (succeed s).Inv where
  cfg := h.cfg
  report := ⟨fun _ => rfl, fun _ _ => ⟨rfl, rfl⟩, fun herr => by simp at herr, by simp⟩
  phase := fun w hw => by simp at hw
  buffers := h.buffers

theorem inv_writeOut (h : s.Inv) (hfits : bs.length ≤ s.cfg.outCap) : (writeOut bs s).Inv where
  cfg := h.cfg
  report := h.report
  phase := h.phase
  buffers := by
    obtain ⟨hin, hout, -, -⟩ := h.buffers
    have hlen : (writeOut bs s).outLen.toNat = bs.length := by
      obtain ⟨-, -, -, -, hcap, -, -⟩ := h.cfg
      exact outLen_writeOut (by omega)
    refine ⟨hin, writeBytes_wf hout (by simpa using hfits), by rw [hlen]; exact hfits, fun a ha => ?_⟩
    rw [hlen] at ha
    rw [writeOut_outBuf, read_writeBytes_inside (by omega) (by omega)]
    simpa using ha

theorem inv_writeCtr (h : s.Inv) (v : DWord) : (writeCtr v s).Inv := ⟨h.cfg, h.report, h.phase, h.buffers⟩

theorem inv_writeVal (h : s.Inv) (v : Word) : (writeVal v s).Inv := ⟨h.cfg, h.report, h.phase, h.buffers⟩

theorem inv_writeCode (h : s.Inv) (v : Word) : (writeCode v s).Inv := ⟨h.cfg, h.report, h.phase, h.buffers⟩

theorem inv_writeResults (h : s.Inv) (r : Results i) (hfits : (resultBytes i r).length ≤ s.cfg.outCap) :
    (writeResults i r s).Inv := by
  cases i with
  | b32enc => exact inv_writeOut h hfits
  | b32dec strict => exact inv_writeOut h hfits
  | tctr => exact inv_writeCtr h r
  | ctrser => exact inv_writeOut h hfits
  | dtrunc alg => exact inv_writeVal h r
  | modr d => exact inv_writeCode h r
  | decfmt d => exact inv_writeOut h hfits
  | otpfin alg d => exact inv_writeOut (inv_writeCode (inv_writeVal h r.1) r.2.1) hfits

/-- Every command keeps the invariant. -/
theorem inv_exec (h : s.Inv) (hexec : exec i s = .next t) : t.Inv := by
  rcases exec_next hexec with ⟨e, info, rfl⟩ | ⟨r, rfl, hr⟩
  · exact inv_raiseError h e info
  · obtain ⟨-, -, -, hcap, -, -, -⟩ := h.cfg
    exact inv_succeed (inv_writeResults h r (by omega))

end Sys2Proof.Proofs

end
/-! What a step and a host event keep: the invariant, and the IN buffer (10_state.md R15, R30, R33). -/

section

namespace Sys2Proof.Proofs

open Sys2Proof.Machine Sys2Proof.Machine.Laws Sys2Proof.Claims

variable {i : Instr} {s t : State} {op : HostOp} {v w : Word}

/-! ### Complete -/

theorem complete_of_decode (h : decode w = .ok i) : complete w s = exec i s := by
  simp [complete, h]

/-- Every next state of Complete: a command's, or the report of an illegal word (R32, R58). -/
theorem complete_next (h : complete w s = .next t) :
    (∃ i, decode w = .ok i ∧ exec i s = .next t) ∨ t = raiseError .illegalCommand (w.toNat % 65536) s := by
  cases hd : decode w with
  | ok i => exact .inl ⟨i, rfl, by rwa [complete_of_decode hd] at h⟩
  | error e =>
    simp only [complete, hd, Host.Outcome.next.injEq] at h
    exact .inr h.symm

/-- Settles O5: Complete of a word that decodes is exec of its command. -/
theorem stepRunsTheDecodedCommand : Obligations.StepRunsTheDecodedCommand := by
  intro s w i hphase hdecode hfaults hdue
  rw [step_complete hfaults hphase hdue, complete_of_decode hdecode]

theorem inv_complete (h : s.Inv) (hc : complete w s = .next t) : t.Inv := by
  rcases complete_next hc with ⟨i, -, hexec⟩ | rfl
  · exact inv_exec h hexec
  · exact inv_raiseError h _ _

/-! ### The invariant: host events

The invariant does not speak of the model's own fields, nor of the fault set. -/

theorem inv_setReply (h : s.Inv) (r : Reply) : (setReply r s).Inv := ⟨h.cfg, h.report, h.phase, h.buffers⟩

theorem inv_nextDraw (h : s.Inv) : (nextDraw s).Inv := ⟨h.cfg, h.report, h.phase, h.buffers⟩

theorem inv_setScript (h : s.Inv) (ops : List HostOp) : (setScript ops s).Inv :=
  ⟨h.cfg, h.report, h.phase, h.buffers⟩

theorem inv_countDelay (h : s.Inv) : (countDelay s).Inv := ⟨h.cfg, h.report, h.phase, h.buffers⟩

theorem inv_refuseAccess (h : s.Inv) (off : Offset) : (refuseAccess off s).Inv :=
  ⟨h.cfg, h.report, h.phase, h.buffers⟩

/-- A CMD write clears DONE and ERR and puts the word it stores in progress, whatever the code and detail were. -/
theorem inv_startCommand (h : s.Inv) (v : Word) : (startCommand v s).Inv where
  cfg := h.cfg
  report := by
    obtain ⟨-, -, -, hcode⟩ := h.report
    exact ⟨nofun, nofun, nofun, hcode⟩
  phase := by
    intro w hw
    cases hw
    exact ⟨rfl, rfl, rfl⟩
  buffers := h.buffers

/-- IN_CAP is a multiple of 4 (R6), so the word that begins inside IN ends inside it. -/
theorem inv_writeInWord {k : Nat} (h : s.Inv) (hk : 4 * k < s.cfg.inCap) (v : Word) : (writeInWord k v s).Inv where
  cfg := h.cfg
  report := h.report
  phase := h.phase
  buffers := by
    obtain ⟨hin, hout, hlen, hwritten⟩ := h.buffers
    obtain ⟨-, -, haligned, -⟩ := h.cfg
    have hfits : 4 * k + (wordBytes v).length ≤ s.cfg.inCap := by
      simp only [wordBytes, List.length_cons, List.length_nil]
      omega
    exact ⟨writeBytes_wf hin hfits, hout, hlen, hwritten⟩

/-- Every permitted host write keeps the invariant: besides CMD and IN it stores only registers of which the invariant does
not speak. -/
theorem inv_writeLoc {off : Offset} {l : Loc} (h : s.Inv) (hl : locate s.cfg off = some l)
    (hw : writeLoc l v s = some t) : t.Inv := by
  rcases writeLoc_some hw with ⟨-, rfl⟩ | ⟨-, rfl⟩ | ⟨-, rfl⟩ | ⟨-, rfl⟩ | ⟨-, rfl⟩ | ⟨-, rfl⟩ | ⟨-, rfl⟩ | ⟨-, rfl⟩ |
    ⟨-, rfl⟩ | ⟨k, rfl, rfl⟩
  on_goal 1 => exact inv_startCommand h v
  on_goal 9 => exact inv_writeInWord h (locate_inWord hl).2.1 v
  all_goals exact ⟨h.cfg, h.report, h.phase, h.buffers⟩

theorem inv_hostPoll (h : s.Inv) : (hostPoll s).Inv := by
  rw [hostPoll_eq]
  split
  · exact inv_setScript (inv_setReply (inv_nextDraw h) _) _
  · exact inv_setReply (inv_nextDraw h) _

theorem inv_hostReset (h : s.Inv) : (hostReset s).Inv where
  cfg := h.cfg
  report := ⟨nofun, fun _ _ => ⟨rfl, rfl⟩, nofun, by simp⟩
  phase := nofun
  buffers := ⟨nil_wf, nil_wf, Nat.zero_le _, nofun⟩

/-- Every host event keeps the invariant. -/
theorem inv_hostStep (h : s.Inv) (hstep : hostStep op s = .next t) : t.Inv := by
  rcases hostStep_next hstep with rfl | ⟨off, rfl⟩ | ⟨l, rfl⟩ | ⟨-, addr, v, off, l, s', -, -, hl, hw, rfl⟩ |
    ⟨-, rfl⟩ | ⟨-, rfl⟩
  · exact inv_setReply h _
  · exact inv_refuseAccess h off
  · exact inv_setReply (inv_nextDraw h) _
  · exact inv_setReply (inv_writeLoc h hl hw) _
  · exact inv_hostPoll h
  · exact inv_hostReset h

/-- Settles O40: a step is Complete, a host event or nothing, and each of these keeps the invariant. -/
theorem stepKeepsTheInvariant : Obligations.StepKeepsTheInvariant := by
  intro s t h hstep
  obtain ⟨-, ⟨w, -, -, hc⟩ | ⟨w, op, rest, -, -, -, hop⟩ | ⟨op, rest, -, -, hop⟩ | ⟨-, -, rfl⟩⟩ := step_cases hstep
  · exact inv_complete h hc
  · exact inv_hostStep (inv_countDelay (inv_setScript h rest)) hop
  · exact inv_hostStep (inv_setScript h rest) hop
  · exact h

/-! ### Who writes IN -/

theorem writeResults_inBuf (r : Results i) (s : State) : (writeResults i r s).inBuf = s.inBuf := by
  cases i <;> rfl

theorem exec_inBuf (h : exec i s = .next t) : t.inBuf = s.inBuf := by
  rcases exec_next h with ⟨e, info, rfl⟩ | ⟨r, rfl, -⟩
  · rfl
  · exact writeResults_inBuf r s

theorem complete_inBuf (h : complete w s = .next t) : t.inBuf = s.inBuf := by
  rcases complete_next h with ⟨i, -, hexec⟩ | rfl
  · exact exec_inBuf hexec
  · rfl

theorem writeLoc_inBuf {l : Loc} (hw : writeLoc l v s = some t) : t.inBuf = s.inBuf ∨ ∃ k, l = .inWord k := by
  rcases writeLoc_some hw with ⟨-, rfl⟩ | ⟨-, rfl⟩ | ⟨-, rfl⟩ | ⟨-, rfl⟩ | ⟨-, rfl⟩ | ⟨-, rfl⟩ | ⟨-, rfl⟩ | ⟨-, rfl⟩ |
    ⟨-, rfl⟩ | ⟨k, rfl, -⟩
  on_goal 10 => exact .inr ⟨k, rfl⟩
  all_goals exact .inl rfl

theorem hostPoll_inBuf (s : State) : (hostPoll s).inBuf = s.inBuf := by
  rw [hostPoll_eq]
  split <;> rfl

/-- A host event that changes IN is a reset, or a write at an address inside IN (R30, R33). -/
theorem hostStep_changes_inBuf (h : hostStep op s = .next t) (hne : t.inBuf ≠ s.inBuf) :
    op = .reset ∨ ∃ addr width v, op = .write addr width v ∧
      s.cfg.base + 0x400 ≤ addr ∧ addr < s.cfg.base + 0x400 + s.cfg.inCap := by
  rcases hostStep_next h with rfl | ⟨off, rfl⟩ | ⟨l, rfl⟩ | ⟨-, addr, v, off, l, s', rfl, ho, hl, hw, rfl⟩ |
    ⟨-, rfl⟩ | ⟨hreset, -⟩
  · exact absurd rfl hne
  · exact absurd rfl hne
  · exact absurd rfl hne
  · rcases writeLoc_inBuf hw with hsame | ⟨k, rfl⟩
    · exact absurd hsame hne
    · obtain ⟨-, haddr⟩ := windowOffset_eq_some ho
      obtain ⟨hoff, hk, -⟩ := locate_inWord hl
      exact .inr ⟨addr, 4, v, rfl, by omega, by omega⟩
  · exact absurd (hostPoll_inBuf s) hne
  · exact .inl hreset

/-- Settles O43: Complete leaves IN alone, so a change of IN is the work of the host's next event. -/
theorem onlyTheHostWritesIn : Obligations.OnlyTheHostWritesIn := by
  intro s t hstep hne
  obtain ⟨-, ⟨w, -, -, hc⟩ | ⟨w, op, rest, -, hs, -, hop⟩ | ⟨op, rest, -, hs, hop⟩ | ⟨-, -, rfl⟩⟩ := step_cases hstep
  · exact absurd (complete_inBuf hc) hne
  · exact ⟨op, rest, hs, hostStep_changes_inBuf (s := countDelay (setScript rest s)) hop hne⟩
  · exact ⟨op, rest, hs, hostStep_changes_inBuf (s := setScript rest s) hop hne⟩
  · exact absurd rfl hne

end Sys2Proof.Proofs

end
/-! The fourteen registers as the host reads and writes them (10_state.md R16 to R29). -/

section

namespace Sys2Proof.Proofs

open Sys2Proof.Machine Sys2Proof.Machine.Laws Sys2Proof.Claims

variable {s s' : State} {o : Nat} {r : Reg} {v w : Word}

/-! ### Accesses to registers -/

theorem registerMap_offset (h : (o, r) ∈ registerMap) :
    o < 0x400 ∧ o % 4 = 0 ∧ registerMap.lookup o = some r := by
  have hall : ∀ e ∈ registerMap, e.1 < 0x400 ∧ e.1 % 4 = 0 ∧ registerMap.lookup e.1 = some e.2 := by decide
  exact hall (o, r) h

theorem locate_of_mem_registerMap (c : Config) (h : (o, r) ∈ registerMap) :
    locate c (BitVec.ofNat 12 o) = some (.reg r) := by
  obtain ⟨hlt, haligned, hlookup⟩ := registerMap_offset h
  have hoff : (BitVec.ofNat 12 o).toNat = o := by rw [BitVec.toNat_ofNat, Nat.mod_eq_of_lt (by omega)]
  rw [locate_register _ _ (by omega) (by omega), hoff, hlookup]
  rfl

/-- A read of a register is permitted in any phase. -/
theorem hostStep_read_register (s : State) (h : (o, r) ∈ registerMap) :
    hostStep (.read (s.cfg.base + o) 4) s = .next (setReply (.data (readLoc s (.reg r))) (nextDraw s)) := by
  obtain ⟨hlt, -, -⟩ := registerMap_offset h
  simp only [hostStep, windowOffset_base s.cfg (show o < 4096 by omega),
    hostRead_permitted (locate_of_mem_registerMap s.cfg h)]

/-- A write of a register the host may write, while idle. -/
theorem hostStep_write_register (h : (o, r) ∈ registerMap) (hidle : s.phase = .idle) (hw : writeReg r v s = some s') :
    hostStep (.write (s.cfg.base + o) 4 v) s = .next (setReply .noData s') := by
  obtain ⟨hlt, -, -⟩ := registerMap_offset h
  simp only [hostStep, windowOffset_base s.cfg (show o < 4096 by omega)]
  exact hostWrite_permitted hidle (locate_of_mem_registerMap s.cfg h) hw

theorem hostStep_write_busy (hlt : o < 4096) (hbusy : s.phase = .busy w) :
    hostStep (.write (s.cfg.base + o) 4 v) s = .fault (.hostWriteWhileBusy (BitVec.ofNat 12 o)) := by
  simp only [hostStep, windowOffset_base s.cfg hlt, hostWrite_busy hbusy]

theorem readLoc_idle (h : s.phase = .idle) (l : Loc) : readLoc s l = idleRead s l := by
  simp [readLoc, isBusy_of_idle h]

/-- CMD shows its word in any phase (R18, R105). -/
theorem readLoc_cmd (s : State) : readLoc s (.reg .cmd) = s.cmd := by
  simp only [readLoc, busyRead, idleRead, regWord, ite_self]

/-- A command just started shows STATUS 0b001 (R18). -/
theorem statusWord_startCommand (v : Word) (s : State) : statusWord (startCommand v s) = 0b001#32 := by
  rw [statusWord, isBusy_of_busy (startCommand_phase s v), startCommand_err, startCommand_done]
  rfl

theorem sameBlock_reply (s : State) (r : Reply) : SameBlock s (setReply r (nextDraw s)) := rfl

/-- Settles O27: CMD is at 0x004; a write starts its word while idle and is the hazard of R104 while busy. -/
theorem cmdWriteStartsACommand : Obligations.CmdWriteStartsACommand := by
  intro s v
  have hcmd : (0x004, Reg.cmd) ∈ registerMap := by decide
  refine ⟨fun hidle => ?_, fun w hbusy => ?_, ?_, rfl⟩
  · exact ⟨_, hostStep_write_register hcmd hidle rfl, rfl, statusWord_startCommand v s⟩
  · exact hostStep_write_busy (by decide) hbusy
  · exact ⟨_, hostStep_read_register s hcmd, by rw [setReply_reply, readLoc_cmd], sameBlock_reply s _⟩

/-! ### The halves of T and CTR -/

theorem append_eq_ofNat (hi lo : Word) : (hi ++ lo : DWord) = BitVec.ofNat 64 (hi.toNat * 2 ^ 32 + lo.toNat) := by
  apply BitVec.eq_of_toNat_eq
  have hhi := hi.isLt
  have hlo := lo.isLt
  rw [BitVec.toNat_append, ← Nat.shiftLeft_add_eq_or_of_lt hlo, Nat.shiftLeft_eq, BitVec.toNat_ofNat,
    Nat.mod_eq_of_lt (by omega)]

theorem lowHalf_eq_ofNat (x : DWord) : x.extractLsb' 0 32 = BitVec.ofNat 32 x.toNat := by
  apply BitVec.eq_of_toNat_eq
  simp

theorem highHalf_eq_ofNat (x : DWord) : x.extractLsb' 32 32 = BitVec.ofNat 32 (x.toNat / 2 ^ 32) := by
  apply BitVec.eq_of_toNat_eq
  simp [Nat.shiftRight_eq_div_pow]

/-- A new low half under the old high half. -/
theorem highHalf_append (x : DWord) (v : Word) :
    (x.extractLsb' 32 32 ++ v : DWord) = BitVec.ofNat 64 (x.toNat / 2 ^ 32 * 2 ^ 32 + v.toNat) := by
  have hx := x.isLt
  rw [append_eq_ofNat, highHalf_eq_ofNat, BitVec.toNat_ofNat, Nat.mod_eq_of_lt (by omega)]

/-- A new high half above the old low half. -/
theorem append_lowHalf (x : DWord) (v : Word) :
    (v ++ x.extractLsb' 0 32 : DWord) = BitVec.ofNat 64 (v.toNat * 2 ^ 32 + x.toNat % 2 ^ 32) := by
  rw [append_eq_ofNat, lowHalf_eq_ofNat, BitVec.toNat_ofNat]

theorem setWidth_eq_ofNat {n : Nat} (x : BitVec n) : x.setWidth 32 = BitVec.ofNat 32 x.toNat := by
  apply BitVec.eq_of_toNat_eq
  simp

/-- Settles O28: each write stores into its register; the halves of T and CTR are joined as numbers. -/
theorem registerWritesStoreTheirValue : Obligations.RegisterWritesStoreTheirValue := by
  intro s v hidle
  have hwrite : ∀ {o r s'}, (o, r) ∈ registerMap → writeReg r v s = some s' →
      hostStep (.write (s.cfg.base + o) 4 v) s = .next (setReply .noData s') := fun h hw =>
    hostStep_write_register h hidle hw
  have hinLen : v.extractLsb' 0 16 = BitVec.ofNat 16 v.toNat := by
    apply BitVec.eq_of_toNat_eq
    simp
  simp only [← highHalf_append, ← append_lowHalf, ← hinLen]
  exact ⟨hwrite (r := .inLen) (by decide) rfl, hwrite (r := .period) (by decide) rfl,
    hwrite (r := .tLo) (by decide) rfl, hwrite (r := .tHi) (by decide) rfl,
    hwrite (r := .ctrLo) (by decide) rfl, hwrite (r := .ctrHi) (by decide) rfl,
    hwrite (r := .val) (by decide) rfl, hwrite (r := .code) (by decide) rfl⟩

/-! ### What the registers show -/

/-- The words of the statement are the model's, register by register of the map. -/
theorem registerWords_eq (h : s.phase = .idle) : registerWords s = registerMap.map fun e => (e.1, regWord s e.2) := by
  simp only [registerWords, registerMap, List.map_cons, List.map_nil, regWord, idWord, statusWord_idle h, errCodeWord,
    errInfoWord, setWidth_eq_ofNat, lowHalf_eq_ofNat, highHalf_eq_ofNat]

/-- Settles O29: an idle read of a register answers its word. -/
theorem registerReadsShowTheirValue : Obligations.RegisterReadsShowTheirValue := by
  intro s hidle e he
  rw [registerWords_eq hidle] at he
  obtain ⟨⟨o, r⟩, hmem, rfl⟩ := List.mem_map.mp he
  exact ⟨_, hostStep_read_register s hmem, by rw [setReply_reply, readLoc_idle hidle]; rfl, sameBlock_reply s _⟩

/-- Settles O39: the reset words are what the reset state's registers show. -/
theorem resetStateShowsTheRegisterMap : Obligations.ResetStateShowsTheRegisterMap := by
  refine ⟨rfl, rfl, rfl, fun e he => ?_⟩
  have hwords : resetWords = registerWords State.reset := rfl
  rw [hwords] at he
  obtain ⟨u, hread, hreply, -⟩ := registerReadsShowTheirValue State.reset rfl e he
  exact ⟨u, hread, hreply⟩

end Sys2Proof.Proofs

end
/-! The host's accesses to the window: which are permitted, what a refused one does, and the bytes of a buffer word
(20_memory.md R38 to R44). -/

section

namespace Sys2Proof.Proofs

open Sys2Proof.Machine Sys2Proof.Machine.Laws Sys2Proof.Claims

variable {s t : State} {c : Config} {off width k j : Nat} {l : Loc} {v : Word}

/-! ### The permitted offsets (R16, R40) -/

theorem toNat_offset (h : off < 4096) : (BitVec.ofNat 12 off).toNat = off := by
  rw [BitVec.toNat_ofNat, Nat.mod_eq_of_lt (by omega)]

theorem mem_registerMap_of_lookup {o : Nat} {r : Reg} (h : registerMap.lookup o = some r) : (o, r) ∈ registerMap := by
  obtain ⟨before, after, hsplit, -⟩ := List.lookup_eq_some_iff.mp h
  rw [hsplit]
  exact List.mem_append_right _ List.mem_cons_self

theorem exists_register_of_lt (h : off < 0x38) (ha : off % 4 = 0) : ∃ r, (off, r) ∈ registerMap := by
  have hall : ∀ o, o < 0x38 → o % 4 = 0 → (registerMap.lookup o).isSome = true := by decide
  obtain ⟨r, hr⟩ := Option.isSome_iff_exists.mp (hall off h ha)
  exact ⟨r, mem_registerMap_of_lookup hr⟩

theorem registerMap_readable {r : Reg} (h : (off, r) ∈ registerMap) : Readable c off := by
  have hall : ∀ e ∈ registerMap, e.1 % 4 = 0 ∧ e.1 < 0x38 := by decide
  obtain ⟨ha, hlt⟩ := hall (off, r) h
  exact ⟨ha, .inl hlt⟩

/-- The register of an offset is the map's entry there. -/
theorem mem_registerMap_of_locate {r : Reg} (hlt : off < 4096) (h : locate c (BitVec.ofNat 12 off) = some (.reg r)) :
    (off, r) ∈ registerMap := by
  have hoff := toNat_offset hlt
  simp only [locate, hoff] at h
  split at h
  · cases h
  · split at h
    · obtain ⟨r', hr, heq⟩ := Option.map_eq_some_iff.mp h
      cases heq
      exact mem_registerMap_of_lookup hr
    · split at h <;> split at h <;> cases h

/-- A readable offset is a register's, that of an IN word or that of an OUT word. -/
theorem readable_cases (h : Readable c off) :
    (∃ r, (off, r) ∈ registerMap) ∨ (∃ k, off = 0x400 + 4 * k ∧ 4 * k < c.inCap) ∨
    ∃ k, off = 0x800 + 4 * k ∧ 4 * k < c.outCap := by
  obtain ⟨ha, hreg | ⟨hlo, hhi⟩ | ⟨hlo, hhi⟩⟩ := h
  · exact .inl (exists_register_of_lt hreg ha)
  · exact .inr (.inl ⟨(off - 0x400) / 4, by omega, by omega⟩)
  · exact .inr (.inr ⟨(off - 0x800) / 4, by omega, by omega⟩)

/-- The capacities of R6 keep every readable offset inside the window. -/
theorem readable_lt (hc : c.Legal) (h : Readable c off) : off < 4096 := by
  obtain ⟨-, hin, -, -, hout, -, -⟩ := hc
  obtain ⟨-, hr⟩ := h
  omega

/-- The writable registers are among the fourteen. -/
theorem writable_register_lt (h : off ∈ [0x004, 0x014, 0x01C, 0x020, 0x024, 0x028, 0x02C, 0x030, 0x034]) :
    off < 0x38 := by
  have hall : ∀ o ∈ [0x004, 0x014, 0x01C, 0x020, 0x024, 0x028, 0x02C, 0x030, 0x034], o < 0x38 := by decide
  exact hall off h

theorem readable_of_writable (h : Writable c off) : Readable c off := by
  obtain ⟨ha, hreg | hin⟩ := h
  · exact ⟨ha, .inl (writable_register_lt hreg)⟩
  · exact ⟨ha, .inr (.inl hin)⟩

/-- The address map has a location exactly at the readable offsets (R16, R40 a and c). -/
theorem readable_iff_locate (hc : c.Legal) (hlt : off < 4096) :
    Readable c off ↔ ∃ l, locate c (BitVec.ofNat 12 off) = some l := by
  obtain ⟨-, hin, hin4, -, hout, hout4, -⟩ := hc
  have hoff := toNat_offset hlt
  constructor
  · intro h
    rcases readable_cases h with ⟨r, hr⟩ | ⟨k, rfl, hk⟩ | ⟨k, rfl, hk⟩
    · exact ⟨_, locate_of_mem_registerMap c hr⟩
    · exact ⟨_, locate_of_inWord hk (by omega)⟩
    · exact ⟨_, locate_of_outWord hk (by omega)⟩
  · rintro ⟨l, hl⟩
    cases l with
    | reg r => exact registerMap_readable (mem_registerMap_of_locate hlt hl)
    | inWord k =>
      obtain ⟨ho, hk, -⟩ := locate_inWord hl
      exact ⟨by omega, by omega⟩
    | outWord k =>
      obtain ⟨ho, hk⟩ := locate_outWord hl
      exact ⟨by omega, by omega⟩

/-- The registers a host write is refused at (R16, R40 d). -/
def readOnlyRegs : List Reg := [.id, .status, .errCode, .errInfo, .outLen]

theorem writeReg_eq_none_iff (r : Reg) (v : Word) (s : State) : writeReg r v s = none ↔ r ∈ readOnlyRegs := by
  cases r <;> simp [writeReg, readOnlyRegs]

/-- The other registers lie at the writable offsets of R16. -/
theorem registerMap_writable_iff {r : Reg} (h : (off, r) ∈ registerMap) : Writable c off ↔ r ∉ readOnlyRegs := by
  have hall : ∀ e ∈ registerMap,
      (e.1 ∈ [0x004, 0x014, 0x01C, 0x020, 0x024, 0x028, 0x02C, 0x030, 0x034] ↔ e.2 ∉ readOnlyRegs) := by decide
  obtain ⟨hlt, ha, -⟩ := registerMap_offset h
  rw [← hall (off, r) h]
  exact ⟨fun hw => hw.2.resolve_right fun hin => by omega, fun hm => ⟨ha, .inl hm⟩⟩

/-- The writable offsets are exactly those of a location an idle block lets the host write (R16, R40). -/
theorem writable_iff_writeLoc (hc : s.cfg.Legal) (hlt : off < 4096) (v : Word) :
    Writable s.cfg off ↔
      ∃ l s', locate s.cfg (BitVec.ofNat 12 off) = some l ∧ writeLoc l v s = some s' := by
  have hoff := toNat_offset hlt
  have hreg {r : Reg} (hr : (off, r) ∈ registerMap) : Writable s.cfg off ↔ ∃ s', writeReg r v s = some s' := by
    rw [registerMap_writable_iff hr, ← writeReg_eq_none_iff r v s, ← Option.ne_none_iff_exists']
  constructor
  · intro h
    obtain ⟨l, hl⟩ := (readable_iff_locate hc hlt).mp (readable_of_writable h)
    cases l with
    | reg r =>
      obtain ⟨s', hs⟩ := (hreg (mem_registerMap_of_locate hlt hl)).mp h
      exact ⟨_, s', hl, hs⟩
    | inWord k => exact ⟨_, _, hl, rfl⟩
    | outWord k =>
      obtain ⟨ho, -⟩ := locate_outWord hl
      obtain ⟨-, hin, -⟩ := hc
      obtain ⟨-, hmem | hrange⟩ := h
      · have := writable_register_lt hmem
        omega
      · omega
  · rintro ⟨l, s', hl, hs⟩
    cases l with
    | reg r => exact (hreg (mem_registerMap_of_locate hlt hl)).mpr ⟨s', hs⟩
    | inWord k =>
      obtain ⟨ho, hk, -⟩ := locate_inWord hl
      exact ⟨by omega, .inr (by omega)⟩
    | outWord k => cases hs

/-! ### Accesses at a window offset -/

theorem hostStep_read_window (s : State) (hlt : off < 4096) (width : Nat) :
    hostStep (.read (s.cfg.base + off) width) s = .next (hostRead (BitVec.ofNat 12 off) width s) := by
  simp only [hostStep, windowOffset_base s.cfg hlt]

theorem hostStep_write_window (s : State) (hlt : off < 4096) (width : Nat) (v : Word) :
    hostStep (.write (s.cfg.base + off) width v) s = hostWrite (BitVec.ofNat 12 off) width v s := by
  simp only [hostStep, windowOffset_base s.cfg hlt]

/-- A permitted read answers the word of its location. -/
theorem hostStep_read_located (hlt : off < 4096) (hl : locate s.cfg (BitVec.ofNat 12 off) = some l) :
    hostStep (.read (s.cfg.base + off) 4) s = .next (setReply (.data (readLoc s l)) (nextDraw s)) := by
  rw [hostStep_read_window s hlt, hostRead_permitted hl]

theorem hostRead_refused {o : Offset} (h : ¬ (width = 4 ∧ ∃ l, locate s.cfg o = some l)) :
    hostRead o width s = refuseAccess o s := by
  rcases hostRead_cases o width s with ⟨hr, -⟩ | ⟨l, hw, hl, -⟩
  · exact hr
  · exact absurd ⟨hw, l, hl⟩ h

theorem hostWrite_refused {o : Offset} (hidle : s.phase = .idle)
    (h : ¬ (width = 4 ∧ ∃ l s', locate s.cfg o = some l ∧ writeLoc l v s = some s')) :
    hostWrite o width v s = .next (refuseAccess o s) := by
  by_cases hwidth : width = 4
  · have hnone : ((locate s.cfg o).bind fun l => writeLoc l v s) = none := by
      refine Option.bind_eq_none_iff.mpr fun l hl => Option.eq_none_iff_forall_not_mem.mpr fun s' hs => ?_
      exact h ⟨hwidth, l, s', hl, hs⟩
    simp [hostWrite, isBusy_of_idle hidle, hwidth, hnone]
  · simp [hostWrite, isBusy_of_idle hidle, hwidth]

/-- What R40 says of a refused access: its fault is recorded beside those there were, and nothing else happens. -/
theorem onlyRefused_refuseAccess (off : Nat) (s : State) :
    OnlyRefused off s (refuseAccess (BitVec.ofNat 12 off) s) := by
  have hfaults : (refuseAccess (BitVec.ofNat 12 off) s).faults =
      if .busError (BitVec.ofNat 12 off) ∈ s.faults then s.faults
      else .busError (BitVec.ofNat 12 off) :: s.faults := rfl
  refine ⟨rfl, ?_, fun f hf => ?_, fun hnone => ?_⟩
  · rw [hfaults]
    split
    · assumption
    · exact List.mem_cons_self
  · rw [hfaults]
    split
    · exact hf
    · exact List.mem_cons_of_mem _ hf
  · exact step_of_fault (fs := []) (by simp [hfaults, hnone])

/-- Settles O32: the complement of the permitted accesses is refused. -/
theorem refusedAccessChangesNoState : Obligations.RefusedAccessChangesNoState := by
  intro s off width v hc hlt
  refine ⟨fun h => ⟨_, ?_, onlyRefused_refuseAccess off s⟩, fun hidle h => ⟨_, ?_, onlyRefused_refuseAccess off s⟩⟩
  · rw [readable_iff_locate hc hlt] at h
    rw [hostStep_read_window s hlt, hostRead_refused h]
  · rw [writable_iff_writeLoc hc hlt v] at h
    rw [hostStep_write_window s hlt, hostWrite_refused hidle h]

theorem writeLoc_faults {s' : State} (hw : writeLoc l v s = some s') : s'.faults = s.faults := by
  rcases writeLoc_some hw with ⟨-, rfl⟩ | ⟨-, rfl⟩ | ⟨-, rfl⟩ | ⟨-, rfl⟩ | ⟨-, rfl⟩ | ⟨-, rfl⟩ | ⟨-, rfl⟩ | ⟨-, rfl⟩ |
    ⟨-, rfl⟩ | ⟨k, -, rfl⟩
  all_goals rfl

/-- Settles O33: a readable offset has a location to read, a writable one a location to write. -/
theorem otherAccessesArePermitted : Obligations.OtherAccessesArePermitted := by
  intro s off v hc
  refine ⟨fun h => ?_, fun hidle h => ?_⟩
  · have hlt := readable_lt hc h
    obtain ⟨l, hl⟩ := (readable_iff_locate hc hlt).mp h
    exact ⟨_, _, hostStep_read_located hlt hl, rfl, sameBlock_reply s _⟩
  · have hlt := readable_lt hc (readable_of_writable h)
    obtain ⟨l, s', hl, hw⟩ := (writable_iff_writeLoc hc hlt v).mp h
    refine ⟨setReply .noData s', ?_, rfl, (setReply_faults s' _).trans (writeLoc_faults hw)⟩
    rw [hostStep_write_window s hlt, hostWrite_permitted hidle hl hw]

/-- Settles O37: an address outside the window has no offset in it. -/
theorem accessOutsideTheWindowIsNotTheBlocks : Obligations.AccessOutsideTheWindowIsNotTheBlocks := by
  intro s addr width v h
  have hnone : windowOffset s.cfg addr = none := windowOffset_outside h
  simp only [hostStep, hnone]
  exact ⟨rfl, rfl⟩

/-! ### The bytes of a buffer word (R38) -/

theorem extract_eq_byteOfWord (v : Word) (j : Nat) : v.extractLsb' (8 * j) 8 = byteOfWord v j := by
  apply BitVec.eq_of_toNat_eq
  rw [byteOfWord, BitVec.extractLsb'_toNat, BitVec.toNat_ofNat, Nat.shiftRight_eq_div_pow, Nat.pow_mul]

theorem wordBytes_get (v : Word) (hj : j < 4) : (wordBytes v)[j]? = some (byteOfWord v j) := by
  rw [← extract_eq_byteOfWord]
  interval_cases j <;> rfl

/-- The bytes above the lowest one. -/
theorem extract_above_byte {n : Nat} {x : BitVec n} {b : Byte} (i : Nat) :
    (x ++ b).extractLsb' (i + 8) 8 = x.extractLsb' i 8 := by
  rw [BitVec.extractLsb'_append_eq_of_le (by omega), Nat.add_sub_cancel]

theorem wordBytes_packWord (b0 b1 b2 b3 : Byte) : wordBytes (packWord b0 b1 b2 b3) = [b0, b1, b2, b3] := by
  simp only [wordBytes, packWord, List.cons.injEq, and_true]
  refine ⟨BitVec.extractLsb'_append_eq_right, ?_, ?_, ?_⟩
  · exact (extract_above_byte 0).trans BitVec.extractLsb'_append_eq_right
  · exact (extract_above_byte 8).trans ((extract_above_byte 0).trans BitVec.extractLsb'_append_eq_right)
  · exact (extract_above_byte 16).trans <|
      (extract_above_byte 8).trans <| (extract_above_byte 0).trans BitVec.extractLsb'_eq_self

/-- Byte j of four packed bytes is the one at index j. -/
theorem byteOfWord_packWord (f : Nat → Byte) (hj : j < 4) : byteOfWord (packWord (f 0) (f 1) (f 2) (f 3)) j = f j := by
  have h := wordBytes_get (packWord (f 0) (f 1) (f 2) (f 3)) hj
  rw [wordBytes_packWord] at h
  interval_cases j <;> exact (Option.some.inj h).symm

theorem byteOfWord_inWord (s : State) (k : Nat) (hj : j < 4) :
    byteOfWord (idleRead s (.inWord k)) j = inByte s (4 * k + j) :=
  byteOfWord_packWord (fun i => inByte s (4 * k + i)) hj

theorem byteOfWord_outWord (s : State) (k : Nat) (hj : j < 4) :
    byteOfWord (idleRead s (.outWord k)) j = outByte s (4 * k + j) :=
  byteOfWord_packWord (fun i => outByte s (4 * k + i)) hj

/-- Settles O30: the four bytes land at the word's indices, and the run of a write touches no other. -/
theorem inWordWriteStoresFourBytes : Obligations.InWordWriteStoresFourBytes := by
  intro s k v hc hidle hk
  obtain ⟨-, hin, -⟩ := hc
  have hbyte : ∀ j, j < 4 → (writeInWord k v s).inBuf.read (4 * k + j) = some (byteOfWord v j) := fun j hj => by
    have hlen : (wordBytes v).length = 4 := rfl
    rw [writeInWord_inBuf, read_writeBytes_inside (by omega) (by omega), Nat.add_sub_cancel_left, wordBytes_get v hj]
  refine ⟨setReply .noData (writeInWord k v s), ?_, rfl, fun j hj => ⟨hbyte j hj, ?_⟩, fun a ha => ?_⟩
  · rw [hostStep_write_window s (by omega), hostWrite_permitted hidle (locate_of_inWord hk (by omega)) rfl]
  · rw [State.wr, setReply_inBuf, hbyte j hj]
    rfl
  · exact read_writeBytes_outside ha

/-- Settles O31: the word of the reply packs the bytes the buffer holds. -/
theorem bufferWordReadsPackTheBytes : Obligations.BufferWordReadsPackTheBytes := by
  intro s k j hc hidle hj
  obtain ⟨-, hin, -, -, hout, -, -⟩ := hc
  refine ⟨fun hk => ?_, fun hk => ?_⟩
  · refine ⟨_, _, hostStep_read_located (by omega) (locate_of_inWord hk (by omega)), rfl, sameBlock_reply s _, ?_⟩
    intro b hb
    rw [readLoc_idle hidle, byteOfWord_inWord s k hj, inByte, hb]
    rfl
  · refine ⟨_, _, hostStep_read_located (by omega) (locate_of_outWord hk (by omega)), rfl, sameBlock_reply s _, ?_⟩
    intro b hb
    rw [readLoc_idle hidle, byteOfWord_outWord s k hj, outByte, hb]
    rfl

/-! ### Reading twice (R42) -/

/-- An OUT byte that has been written does not depend on the draw of the read. -/
theorem outByte_read_of_written {a : Nat} (r : Reply) (h : (s.outBuf.read a).isSome = true) :
    outByte (setReply r (nextDraw s)) a = outByte s a := by
  obtain ⟨b, hb⟩ := Option.isSome_iff_exists.mp h
  simp only [outByte, setReply_outBuf, nextDraw_outBuf, hb, Option.getD_some]

/-- A read leaves what the next one finds, but for OUT bytes never written. -/
theorem idleRead_after_read (r : Reply)
    (h : ∀ k, l = .outWord k → ∀ j, j < 4 → (s.outBuf.read (4 * k + j)).isSome = true) :
    idleRead (setReply r (nextDraw s)) l = idleRead s l := by
  cases l with
  | reg r => cases r <;> rfl
  | inWord k => rfl
  | outWord k =>
    have hbyte : ∀ j, j < 4 → outByte (setReply r (nextDraw s)) (4 * k + j) = outByte s (4 * k + j) := fun j hj =>
      outByte_read_of_written r (h k rfl j hj)
    have hfirst := hbyte 0 (by omega)
    rw [Nat.add_zero] at hfirst
    simp only [idleRead, hfirst, hbyte 1 (by omega), hbyte 2 (by omega), hbyte 3 (by omega)]

/-- Settles O34: the second read is of the same location, in a state that shows the same there. -/
theorem repeatedReadsAgree : Obligations.RepeatedReadsAgree := by
  intro s t u off hc hidle hout hr hfirst hsecond
  have hlt := readable_lt hc hr
  obtain ⟨l, hl⟩ := (readable_iff_locate hc hlt).mp hr
  rw [hostStep_read_located hlt hl] at hfirst
  cases hfirst
  have hagain := hostStep_read_located (s := setReply (.data (readLoc s l)) (nextDraw s)) hlt hl
  cases hagain.symm.trans hsecond
  have hwritten : ∀ k, l = .outWord k → ∀ j, j < 4 → (s.outBuf.read (4 * k + j)).isSome = true := by
    rintro k rfl j hj
    obtain ⟨ho, -⟩ := locate_outWord hl
    rw [toNat_offset hlt] at ho
    have h := hout.resolve_left (by omega) j hj
    rwa [ho, Nat.add_sub_cancel_left] at h
  rw [setReply_reply, setReply_reply, readLoc_idle hidle, readLoc_idle (s := setReply _ (nextDraw s)) hidle,
    idleRead_after_read _ hwritten]

end Sys2Proof.Proofs

end
/-! The order of the host's events and Complete (20_memory.md R45, R48, 60_exceptions.md R99). -/

section

namespace Sys2Proof.Proofs

open Sys2Proof.Machine Sys2Proof.Machine.Laws Sys2Proof.Claims

variable {s t : State} {op : HostOp} {rest : List HostOp} {w : Word}

/-! ### The host's next event -/

theorem step_idle_event (hfaults : s.faults = []) (hidle : s.phase = .idle) (hscript : s.script = op :: rest) :
    step s = hostStep op (setScript rest s) := by
  simp only [step, advance, hfaults, hidle, hscript]

theorem step_busy_event (hfaults : s.faults = []) (hbusy : s.phase = .busy w) (hscript : s.script = op :: rest)
    (hdelay : s.delay ≠ 0) : step s = hostStep op (countDelay (setScript rest s)) := by
  simp only [step, advance, hfaults, hbusy, hscript, if_neg hdelay]

theorem step_idle_nothing (hfaults : s.faults = []) (hidle : s.phase = .idle) (hscript : s.script = []) :
    step s = .next s := by
  simp only [step, advance, hfaults, hidle, hscript]

/-- Settles O6: the three ways a step is not Complete. -/
theorem stepTakesTheHostsNextEvent : Obligations.StepTakesTheHostsNextEvent := by
  intro s hfaults
  refine ⟨fun op rest hscript => ⟨fun hidle => ?_, fun w n hbusy hdelay => ?_⟩, fun hidle hscript => ?_⟩
  · exact step_idle_event hfaults hidle hscript
  · rw [step_busy_event hfaults hbusy hscript (by omega), countDelay, setScript_delay, hdelay]
    rfl
  · exact step_idle_nothing hfaults hidle hscript

/-! ### A command in progress -/

/-- A host event while a command is in progress is a reset, or changes only the model's own fields, the fault set and
the reply: writes have no next state (R104). -/
theorem hostStep_busy_next (hbusy : s.phase = .busy w) (h : hostStep op s = .next t) :
    op = .reset ∨ t = { s with script := t.script, draws := t.draws, reply := t.reply, faults := t.faults } := by
  rcases hostStep_next h with rfl | ⟨off, rfl⟩ | ⟨l, rfl⟩ | ⟨hidle, -⟩ | ⟨-, rfl⟩ | ⟨hreset, -⟩
  · exact .inr rfl
  · exact .inr rfl
  · exact .inr rfl
  · rw [hbusy] at hidle
    cases hidle
  · rw [hostPoll_eq, isBusy_of_busy hbusy]
    exact .inr rfl
  · exact .inl hreset

/-- Settles O42: a step of a busy block is its Complete or a host event. -/
theorem commandInProgressIsNotChanged : Obligations.CommandInProgressIsNotChanged := by
  intro s t w hbusy hstep
  obtain ⟨-, ⟨w', hw, -, hc⟩ | ⟨w', op, rest, -, hscript, -, hop⟩ | ⟨op, rest, hidle, -⟩ | ⟨hidle, -⟩⟩ :=
    step_cases hstep
  · rw [hbusy] at hw
    cases hw
    exact .inl hc
  · have hbusy' : (countDelay (setScript rest s)).phase = .busy w := hbusy
    rcases hostStep_busy_next hbusy' hop with rfl | hsame
    · exact .inr (.inl ⟨rest, hscript, hop⟩)
    · exact .inr (.inr (by rw [hsame]; rfl))
  · rw [hbusy] at hidle
    cases hidle
  · rw [hbusy] at hidle
    cases hidle

end Sys2Proof.Proofs

end
/-! The decoder and the encoder of the command word, and what an illegal word completes with (30_encoding.md R51 to
R59). -/

section

namespace Sys2Proof.Proofs

open Sys2Proof.Laws Sys2Proof.Machine Sys2Proof.Machine.Laws Sys2Proof.Claims

variable {i : Instr} {r : CommandRow} {s : State} {v w : Word} {d : Nat}

/-! ### What the decoder answers (R58) -/

/-- A word that decodes matches a row of the table, which builds the command. -/
theorem exists_row_of_decode (h : decode w = .ok i) :
    ∃ r ∈ commandTable, w &&& r.mask = r.pattern ∧ r.build w = i := by
  unfold decode at h
  split at h
  next r hfind =>
    exact ⟨r, List.mem_of_find?_eq_some hfind, by simpa using List.find?_some hfind, Except.ok.inj h⟩
  next => cases h

/-- A word is illegal exactly when it matches no row. -/
theorem decode_error_iff : (∃ e, decode w = .error e) ↔ ∀ r ∈ commandTable, w &&& r.mask ≠ r.pattern := by
  unfold decode
  cases hfind : commandTable.find? (fun r => w &&& r.mask == r.pattern) with
  | none => simpa using hfind
  | some r =>
    have hmatch : w &&& r.mask = r.pattern := by simpa using List.find?_some hfind
    simpa using ⟨r, List.mem_of_find?_eq_some hfind, hmatch⟩

/-! ### Every command back from its word: the fields read back (R54, R55) -/

theorem digField_or_digBits (hd : d < 16) (hv : v.extractLsb' 8 4 = 0#4) : digField (v ||| digBits d) = d := by
  have hread : (digBits d).extractLsb' 8 4 = BitVec.ofNat 4 d := by interval_cases d <;> rfl
  rw [digField, BitVec.extractLsb'_or, hv, hread, BitVec.zero_or, BitVec.toNat_ofNat, Nat.mod_eq_of_lt hd]

theorem algField_or_digBits (hd : d < 16) : algField (v ||| digBits d) = algField v := by
  have hclear : (digBits d).extractLsb' 12 2 = 0#2 := by interval_cases d <;> rfl
  rw [algField, BitVec.extractLsb'_or, hclear, BitVec.or_zero, algField]

/-- The row that bears a command's name reads the command back from its word. -/
theorem build_encode (hwf : i.wellFormed = true) (hr : r ∈ commandTable) (hname : r.mnemonic = RowOf.mnemonic i) :
    r.build (encode i) = i := by
  revert r
  cases i with
  | b32enc => simp [commandTable, RowOf.mnemonic]
  | b32dec strict =>
    have hs : strictField (encode (.b32dec strict)) = strict := by cases strict <;> rfl
    simp [commandTable, RowOf.mnemonic, hs]
  | tctr => simp [commandTable, RowOf.mnemonic]
  | ctrser => simp [commandTable, RowOf.mnemonic]
  | dtrunc alg =>
    have ha : algField (encode (.dtrunc alg)) = alg := by cases alg <;> rfl
    simp [commandTable, RowOf.mnemonic, ha]
  | modr d =>
    have hd : digField (encode (.modr d)) = d := digField_or_digBits (of_decide_eq_true hwf) rfl
    simp [commandTable, RowOf.mnemonic, hd]
  | decfmt d =>
    have hd : digField (encode (.decfmt d)) = d := digField_or_digBits (of_decide_eq_true hwf) rfl
    simp [commandTable, RowOf.mnemonic, hd]
  | otpfin alg d =>
    have hfits : d < 16 := of_decide_eq_true hwf
    have hd : digField (encode (.otpfin alg d)) = d := digField_or_digBits hfits (by cases alg <;> rfl)
    have ha : algField (encode (.otpfin alg d)) = alg := (algField_or_digBits hfits).trans (by cases alg <;> rfl)
    simp [commandTable, RowOf.mnemonic, hd, ha]

/-- The statements of Laws/PerInstr.lean together: the one row a command's word matches is the row of its name. -/
theorem matches_own_row (i : Instr) : RowOf.Statement i := by
  cases i with
  | b32enc => exact RowOf.b32enc
  | b32dec strict => exact RowOf.b32dec strict
  | tctr => exact RowOf.tctr
  | ctrser => exact RowOf.ctrser
  | dtrunc alg => exact RowOf.dtrunc alg
  | modr d => exact RowOf.modr d
  | decfmt d => exact RowOf.decfmt d
  | otpfin alg d => exact RowOf.otpfin alg d

/-- Settles O1: the one row a command's word matches reads the command back. -/
theorem encodeThenDecodeGivesTheCommand : Obligations.EncodeThenDecodeGivesTheCommand := by
  intro i hwf
  obtain ⟨hnames, -⟩ := matches_own_row i hwf
  obtain ⟨r, hfilter, hname⟩ := List.map_eq_singleton_iff.mp hnames
  have hr : r ∈ commandTable := (List.mem_filter.mp (hfilter ▸ List.mem_singleton_self r)).1
  rw [decode, ← List.head?_filter, hfilter]
  exact congrArg Except.ok (build_encode hwf hr hname)

/-! ### One word for each command: the encoder writes back the bits a row's mask leaves open (R57) -/

/-- Moved back to its place, a field of `n` bits at bit `a` is the word under the field's mask. -/
theorem shiftLeft_extract (w : Word) (a n : Nat) :
    (w.extractLsb' a n).setWidth 32 <<< a = w &&& (BitVec.allOnes n).setWidth 32 <<< a := by
  refine BitVec.eq_of_getLsbD_eq fun j hj => ?_
  by_cases hlow : j < a
  · simp [hlow]
  · by_cases hin : j - a < n
    · have hj' : a + (j - a) = j := by omega
      simp [hj, hlow, hin, hj']
    · simp [hlow, hin]

theorem digBits_digField (w : Word) : digBits (digField w) = w &&& 0xF00#32 := by
  rw [digBits, digField, ← setWidth_eq_ofNat]
  exact shiftLeft_extract w 8 4

theorem algBits_algField (w : Word) : algBits (algField w) = w &&& 0x3000#32 := by
  refine Eq.trans ?_ (shiftLeft_extract w 12 2)
  rw [algField]
  generalize w.extractLsb' 12 2 = a
  revert a
  decide

theorem strictBits_strictField (w : Word) : strictBits (strictField w) = w &&& 0x4000#32 := by
  refine Eq.trans ?_ (shiftLeft_extract w 14 1)
  rw [strictField, BitVec.getLsbD_eq_extractLsb']
  generalize w.extractLsb' 14 1 = b
  revert b
  decide

/-- Encoding what a row builds gives the row's pattern and, where its mask is 0, the word's own bits. -/
theorem encode_build (w : Word) (hr : r ∈ commandTable) : encode (r.build w) = r.pattern ||| w &&& ~~~r.mask := by
  revert r
  simp [commandTable, encode, digBits_digField, algBits_algField, strictBits_strictField, BitVec.or_assoc,
    ← BitVec.and_or_distrib_left]

theorem wellFormed_build (w : Word) (hr : r ∈ commandTable) : (r.build w).wellFormed = true := by
  have hdig : digFits (digField w) = true := decide_eq_true (w.extractLsb' 8 4).isLt
  revert r
  simp [commandTable, Instr.wellFormed, hdig]

/-- Settles O2: a row's mask splits the word into the row's pattern and the bits the encoder writes back. -/
theorem decodeThenEncodeGivesTheWord : Obligations.DecodeThenEncodeGivesTheWord := by
  intro w i h
  obtain ⟨r, hr, hmatch, rfl⟩ := exists_row_of_decode h
  refine ⟨?_, wellFormed_build w hr⟩
  calc encode (r.build w) = r.pattern ||| w &&& ~~~r.mask := encode_build w hr
    _ = w &&& (r.mask ||| ~~~r.mask) := by rw [← hmatch, BitVec.and_or_distrib_left]
    _ = w := by rw [BitVec.or_not_self, BitVec.and_allOnes]

/-! ### The illegal words (R59) -/

/-- Two words with the same five fields are the same word (R51). -/
theorem eq_iff_fields (v w : Word) : v = w ↔
    v.extractLsb' 0 8 = w.extractLsb' 0 8 ∧ v.extractLsb' 15 17 = w.extractLsb' 15 17 ∧
    v.extractLsb' 14 1 = w.extractLsb' 14 1 ∧ v.extractLsb' 12 2 = w.extractLsb' 12 2 ∧
    v.extractLsb' 8 4 = w.extractLsb' 8 4 := by
  simp only [BitVec.toNat_eq, BitVec.extractLsb'_toNat, Nat.shiftRight_eq_div_pow]
  omega

/-- R57 and R59 agree: a word matches a row exactly when it has the row's OP and no ground of R59 holds. -/
theorem matches_row_iff (hr : r ∈ commandTable) :
    w &&& r.mask = r.pattern ↔ w.extractLsb' 0 8 = r.pattern.extractLsb' 0 8 ∧ ¬ IllegalByRule w := by
  rw [eq_iff_fields]
  simp only [BitVec.extractLsb'_and, IllegalByRule, BitVec.getLsbD_eq_extractLsb']
  generalize w.extractLsb' 0 8 = op, w.extractLsb' 8 4 = dig, w.extractLsb' 12 2 = alg, w.extractLsb' 14 1 = strict,
    w.extractLsb' 15 17 = rsv
  have hop : op &&& 255#8 = op := BitVec.and_allOnes
  have hdig : dig &&& 15#4 = dig := BitVec.and_allOnes
  have halg : alg &&& 3#2 = alg := BitVec.and_allOnes
  have hstrict : strict &&& 1#1 = strict := BitVec.and_allOnes
  have hrsv : rsv &&& 131071#17 = rsv := BitVec.and_allOnes
  simp only [commandTable, List.mem_cons, List.not_mem_nil, or_false] at hr
  rcases hr with rfl | rfl | rfl | rfl | rfl | rfl | rfl | rfl <;>
  · simp [hop, hdig, halg, hstrict, hrsv, BitVec.toNat_eq]
    omega

/-- Every OP that is not reserved is the OP of a row. -/
theorem exists_row_of_op : ∀ op : Byte, op.toNat ∈ [0x01, 0x02, 0x10, 0x11, 0x20, 0x21, 0x22, 0x23] →
    ∃ r ∈ commandTable, op = r.pattern.extractLsb' 0 8 := by
  decide

theorem decode_error_iff_illegal : (∃ e, decode w = .error e) ↔ IllegalByRule w := by
  rw [decode_error_iff]
  constructor
  · intro hnone
    by_contra hlegal
    have hop : (w.extractLsb' 0 8).toNat ∈ [0x01, 0x02, 0x10, 0x11, 0x20, 0x21, 0x22, 0x23] :=
      not_not.mp fun hreserved => hlegal (.inl hreserved)
    obtain ⟨r, hr, hsame⟩ := exists_row_of_op _ hop
    exact hnone r hr ((matches_row_iff hr).mpr ⟨hsame, hlegal⟩)
  · exact fun hillegal r hr hmatch => ((matches_row_iff hr).mp hmatch).2 hillegal

theorem complete_of_illegal (h : IllegalByRule w) : complete w s = .next (failed 7#4 (w.toNat % 65536) s) := by
  obtain ⟨e, he⟩ := decode_error_iff_illegal.mpr h
  rw [complete, he]
  rfl

/-- Settles O4: the words no row matches, and the report Complete gives on them. -/
theorem illegalWordsFailWithIllegalCommand : Obligations.IllegalWordsFailWithIllegalCommand := by
  refine fun w => ⟨decode_error_iff_illegal, fun s hillegal hphase hfaults hdue => ?_⟩
  rw [step_complete hfaults hphase hdue, complete_of_illegal hillegal]

/-- Settles O3, by evaluating the decoder on the nine words. -/
theorem sampleWordsDecodeAsWritten : Obligations.SampleWordsDecodeAsWritten := by
  unfold Obligations.SampleWordsDecodeAsWritten
  decide

end Sys2Proof.Proofs

end
/-! The Base32 commands: their tables, the rule of each, and the two properties that join them (40_base32.md). -/

section

namespace Sys2Proof.Proofs

open Sys2Proof.Machine Sys2Proof.Machine.Laws Sys2Proof.Claims

variable {s : State} {bs : List Byte} {vs : List Sym} {strict : Bool} {n i j k p q : Nat}

/-! ### The tables (R63, R64) -/

theorem symVal_alph_without_fold (v : Sym) : symVal (alph v) = some v := by
  revert v
  decide

/-- A character with a symbol value is the character of that value. -/
theorem alph_of_symVal : ∀ c : Byte, ∀ v ∈ symVal c, alph v = c := by
  decide

/-- Settles O14: the tables entry by entry; SYMVAL inverts ALPH from both sides. -/
theorem alphabetAndFoldingAreTheTables : Obligations.AlphabetAndFoldingAreTheTables := by
  refine ⟨by decide, fun c v => ⟨alph_of_symVal c v, ?_⟩, by decide⟩
  rintro rfl
  exact symVal_alph_without_fold v

/-! ### The input a command reads -/

/-- The bytes IN[0..n), where they are all written. -/
def input (s : State) (n : Nat) : List Byte := (List.range n).map (inAt s)

@[simp] theorem input_length (s : State) (n : Nat) : (input s n).length = n := by simp [input]

theorem input_get (h : i < n) : (input s n)[i]? = some (inAt s i) := by simp [input, h]

theorem take_input (h : i ≤ n) : (input s n).take i = input s i := by
  rw [input, ← List.map_take, List.take_range, Nat.min_eq_left h, input]

theorem read_of_wr (h : s.wr i = true) : s.inBuf.read i = some (inAt s i) := by
  obtain ⟨b, hb⟩ := Option.isSome_iff_exists.mp h
  rw [inAt, hb, Option.getD_some]

theorem readBytes_of_writtenInput (h : Written s n) : s.inBuf.readBytes 0 n = .ok (input s n) := by
  refine (readBytes_eq_ok_iff ..).mpr ⟨input_length s n, fun i hi => ?_⟩
  rw [Nat.zero_add, input_get hi, read_of_wr (h i hi)]

theorem readBytes_of_firstUnwritten (h : FirstUnwritten s n i) : s.inBuf.readBytes 0 n = .error i := by
  obtain ⟨hi, hnot, hbelow⟩ := h
  have hnone : s.inBuf.read i = none := by simpa [State.wr] using hnot
  exact (readBytes_eq_error_iff ..).mpr ⟨Nat.zero_le i, by omega, hnone, fun j _ hj => hbelow j hj⟩

theorem read_succeed_writeOut (h : i < bs.length) : (succeed (writeOut bs s)).outBuf.read i = bs[i]? := by
  rw [succeed_outBuf, writeOut_outBuf, read_writeBytes_inside (Nat.zero_le i) (by omega), Nat.sub_zero]

/-- R31, R35: a command that succeeds with the bytes given in OUT. -/
theorem wroteOut_writeOut (bs : List Byte) (s : State) :
    WroteOut bs.length (bs.getD · 0#8) s (succeed (writeOut bs s)) := by
  refine ⟨rfl, fun a ha => read_writeBytes_outside (by omega), fun a ha => ?_⟩
  rw [read_succeed_writeOut ha, List.getElem?_eq_getElem ha]
  exact congrArg some (List.getD_eq_getElem _ _ ha).symm

/-! ### B32ENC (R66) -/

theorem streamBit_input (s : State) (n p : Nat) : streamBit (input s n) p = inBit s n p := by
  by_cases h : p < 8 * n
  · have hi : p / 8 < n := by omega
    simp [streamBit, inBit, List.getD_eq_getElem?_getD, input_get hi, h]
  · have hi : n ≤ p / 8 := by omega
    simp [streamBit, inBit, List.getD_eq_getElem?_getD, input, hi, h]

/-- Settles O15: the clauses of R66 are the cases of B32ENC's answer, and its text is the input's chunks. -/
theorem b32encRule : Obligations.B32encRule := by
  refine ⟨rfl, fun s => ⟨fun hlong => ?_, fun hcap hroom => ?_, fun hcap hroom => ⟨fun i hi => ?_, fun hw => ?_⟩⟩⟩
  · exact execB32enc_next.mpr (.inl ⟨hlong, rfl⟩)
  · exact execB32enc_next.mpr (.inr ⟨hcap, .inl ⟨hroom, rfl⟩⟩)
  · exact execB32enc_fault.mpr ⟨hcap, hroom, i, readBytes_of_firstUnwritten hi, rfl⟩
  · have hdone := execB32enc_next.mpr (.inr ⟨hcap, .inr ⟨hroom, _, readBytes_of_writtenInput hw, rfl⟩⟩)
    have hout := wroteOut_writeOut (encodeBytes (input s s.inLen.toNat)) s
    rw [encodeBytes_length, input_length] at hout
    refine ⟨_, _, hdone, hout, fun m hm => ?_⟩
    obtain ⟨c, hc, hspec⟩ := encodeBytes_spec (input s s.inLen.toNat) (m := m) (by rwa [input_length])
    simp only [streamBit_input, input_length] at hspec
    rw [List.getD_eq_getElem?_getD, hc, Option.getD_some]
    exact hspec

/-! ### B32DEC (R69) -/

theorem padRun_input (h : IsPadRun s n p) : padRun (input s n) = p := by
  obtain ⟨hle, hpads, hstop⟩ := h
  refine (padRun_eq_iff ..).mpr ⟨by simpa using hle, fun j hj hjn => ?_, fun hp => ?_⟩
  · rw [input_length] at hj hjn
    rw [input_get hjn, hpads j hjn hj, padChar]
  · rw [input_length] at hp ⊢
    rw [input_get (by omega), ne_eq, Option.some.injEq]
    exact hstop hp

/-- The symbol values of IN[0..n), where they are all defined. -/
def symbols (s : State) (n : Nat) : List Sym := (List.range n).map fun i => (symbolAt s i).getD 0#5

@[simp] theorem symbols_length (s : State) (n : Nat) : (symbols s n).length = n := by simp [symbols]

theorem symValues_of_allSymbols (h : AllSymbols s n) : symValues 0 (input s n) = .ok (symbols s n) := by
  rw [symValues_eq_ok_iff, input, symbols, List.map_map, List.map_map]
  refine List.map_congr_left fun i hi => ?_
  obtain ⟨v, hv⟩ := Option.isSome_iff_exists.mp (h i (List.mem_range.mp hi))
  simp only [Function.comp_apply, hv, Option.getD_some]
  exact hv

theorem symValues_of_notSymbol (hi : i < n) (hbad : symbolAt s i = none) (hgood : AllSymbols s i) :
    symValues 0 (input s n) = .error i := by
  refine (symValues_eq_error_iff ..).mpr ⟨i, (Nat.zero_add i).symm, ?_, fun l hl => ?_⟩
  · rw [input_get hi, Option.map_some]
    exact congrArg some hbad
  · exact ⟨_, input_get (by omega), hgood l hl⟩

theorem symBits_symbols (h : q < 5 * n) : (symBits (symbols s n))[q]? = some (symbolBit s q) := by
  have hq : q / 5 < n := by omega
  simp [symBits_get, symbols, hq, symbolBit]

/-- Bit `7 - k` of byte j of a packed stream, where the stream is long enough to hold the byte. -/
theorem packBits_getD {bits : List Bool} (hj : j < bits.length / 8) (hk : k < 8) :
    bits[8 * j + k]? = some (((packBits bits).getD j 0#8).getLsbD (7 - k)) := by
  rw [← packBits_get bits hj hk, List.getD_eq_getElem?_getD, List.getElem?_eq_getElem (by simpa using hj)]
  rfl

theorem strictOK_iff : StrictOK n p ↔ PaddingLegal n p := by simp [StrictOK, PaddingLegal]

/-- B32DEC when every check passes. -/
theorem execB32dec_succeeds (hcap : s.inLen.toNat ≤ s.cfg.inCap) (hread : s.inBuf.readBytes 0 s.inLen.toNat = .ok bs)
    (hsyms : symValues 0 (bs.take (s.inLen.toNat - padRun bs)) = .ok vs)
    (hpad : strict = true → StrictOK s.inLen.toNat (padRun bs))
    (hroom : decodedLength (s.inLen.toNat - padRun bs) ≤ s.cfg.outCap) :
    execB32dec strict s = .next (succeed (writeOut (packBits (symBits vs)) s)) := by
  have hpad' := not_and_not_right.mpr hpad
  exact execB32dec_next.mpr (.inr ⟨hcap, bs, hread, .inr ⟨vs, hsyms, .inr ⟨hpad', .inr ⟨hroom, rfl⟩⟩⟩⟩)

/-- Settles O16: the clauses of R69 are the cases of B32DEC's answer, and its bytes are the packed symbol stream. -/
theorem b32decRule : Obligations.B32decRule := by
  refine ⟨rfl, rfl, fun strict s => ⟨fun hlong => ?_, fun hcap => ⟨fun i hi => ?_, fun hw p hp => ?_⟩⟩⟩
  · exact execB32dec_next.mpr (.inl ⟨hlong, rfl⟩)
  · exact execB32dec_fault.mpr ⟨hcap, i, readBytes_of_firstUnwritten hi, rfl⟩
  · have hread := readBytes_of_writtenInput hw
    have hrun := padRun_input hp
    have htake := take_input (s := s) (Nat.sub_le s.inLen.toNat p)
    generalize input s s.inLen.toNat = bs at hread hrun htake
    subst hrun
    have hsyms (h : AllSymbols s (s.inLen.toNat - padRun bs)) := htake.symm ▸ symValues_of_allSymbols h
    simp only [← strictOK_iff]
    refine ⟨fun i hi hbad hgood => ?_, fun hall hs hpad => ?_, fun hall hpad hroom => ?_, fun hall hpad hroom => ?_⟩
    · have hstop := htake.symm ▸ symValues_of_notSymbol hi hbad hgood
      exact execB32dec_next.mpr (.inr ⟨hcap, bs, hread, .inl ⟨i, hstop, rfl⟩⟩)
    · exact execB32dec_next.mpr (.inr ⟨hcap, bs, hread, .inr ⟨_, hsyms hall, .inl ⟨hs, hpad, rfl⟩⟩⟩)
    · have hpad' := not_and_not_right.mpr hpad
      exact execB32dec_next.mpr (.inr ⟨hcap, bs, hread, .inr ⟨_, hsyms hall, .inr ⟨hpad', .inl ⟨hroom, rfl⟩⟩⟩⟩)
    · generalize hn : s.inLen.toNat - padRun bs = n at *
      have hout := wroteOut_writeOut (packBits (symBits (symbols s n))) s
      rw [packBits_length, symBits_length, symbols_length] at hout
      refine ⟨_, _, execB32dec_succeeds hcap hread (hn ▸ hsyms hall) hpad (hn ▸ hroom), hout, fun j k hj hk => ?_⟩
      have hbit := packBits_getD (bits := symBits (symbols s n)) (j := j) (by simpa using hj) hk
      rw [symBits_symbols (by omega), Option.some.injEq] at hbit
      exact hbit.symm

/-! ### Decoding the encoder's text (R72) -/

/-- ceil(8L/5), the real characters of the text of L bytes (R65). -/
def realChars (n : Nat) : Nat := (8 * n + 4) / 5

/-- R66, R67: a text is the characters of symbols that carry the bytes' bits, and then the pad characters. -/
theorem encodeBytes_eq_symbols_then_pads (bs : List Byte) : ∃ vs : List Sym,
    encodeBytes bs = vs.map alph ++ List.replicate (encodedLength bs.length - realChars bs.length) padChar ∧
    vs.length = realChars bs.length ∧ ∀ q, q < 8 * bs.length → (symBits vs)[q]? = some (streamBit bs q) := by
  have hreal : ∀ m : Fin (realChars bs.length), ∃ v : Sym, (encodeBytes bs)[m.val]? = some (alph v) ∧
      ∀ j, j < 5 → v.getLsbD (4 - j) = streamBit bs (5 * m + j) := by
    rintro ⟨m, hm⟩
    unfold realChars at hm
    obtain ⟨c, hc, hspec⟩ := encodeBytes_spec bs (m := m) (by unfold encodedLength; omega)
    rw [if_pos (by omega)] at hspec
    obtain ⟨v, rfl, hbits⟩ := hspec
    exact ⟨v, hc, hbits⟩
  choose sym hchar hbits using hreal
  refine ⟨List.ofFn sym, List.ext_getElem? fun m => ?_, List.length_ofFn, fun q hq => ?_⟩
  · rcases Nat.lt_or_ge m (realChars bs.length) with hm | hm
    · rw [List.getElem?_append_left (by simpa using hm), hchar ⟨m, hm⟩]
      simp [hm]
    · rw [List.getElem?_append_right (by simpa using hm), List.length_map, List.length_ofFn, List.getElem?_replicate]
      rcases Nat.lt_or_ge m (encodedLength bs.length) with hlt | hge
      · obtain ⟨c, hc, hspec⟩ := encodeBytes_spec bs hlt
        unfold realChars at hm ⊢
        rw [if_neg (by omega)] at hspec
        rw [hc, hspec, if_pos (by omega)]
      · rw [List.getElem?_eq_none (by simpa using hge), if_neg (by omega)]
  · have hm : q / 5 < realChars bs.length := by unfold realChars; omega
    have hq' : 5 * (q / 5) + q % 5 = q := Nat.div_add_mod q 5
    simp [symBits_get, hm, hbits ⟨q / 5, hm⟩ (q % 5) (by omega), hq']

theorem padRun_append_pads (bs : List Byte) (k : Nat) : padRun (bs ++ List.replicate k padChar) = padRun bs + k := by
  induction k with
  | zero => simp
  | succ k ih => rw [List.replicate_succ', ← List.append_assoc, padRun_concat, if_pos rfl, ih, Nat.add_assoc]

theorem padRun_map_alph (vs : List Sym) : padRun (vs.map alph) = 0 := by
  cases vs using List.reverseRecOn with
  | nil => rfl
  | append_singleton vs v => rw [List.map_append, List.map_singleton, padRun_concat, if_neg (alph_ne_pad v)]

theorem symValues_map_alph (vs : List Sym) : symValues 0 (vs.map alph) = .ok vs := by
  rw [symValues_eq_ok_iff, List.map_map]
  exact List.map_congr_left fun v _ => symVal_alph v

/-- A stream that begins with the bits of `bs` and has fewer than 8 more packs to `bs`: the rest is discarded. -/
theorem packBits_eq {bits : List Bool} (hlen : bits.length / 8 = bs.length)
    (h : ∀ q, q < 8 * bs.length → bits[q]? = some (streamBit bs q)) : packBits bits = bs := by
  refine List.ext_getElem (by simpa using hlen) fun j hj hj' => BitVec.eq_of_getLsbD_eq fun i hi => ?_
  have hbit := packBits_getD (bits := bits) (j := j) (k := 7 - i) (by omega) (by omega)
  rw [h _ (by omega), Option.some.injEq] at hbit
  have hbyte : (8 * j + (7 - i)) / 8 = j := by omega
  have hpos : 7 - (8 * j + (7 - i)) % 8 = i := by omega
  have hi' : 7 - (7 - i) = i := by omega
  simp only [streamBit, hbyte, hpos, hi', List.getD_eq_getElem _ _ hj, List.getD_eq_getElem _ _ hj'] at hbit
  exact hbit.symm

/-- The pad run of a text is legal (R65, R71). -/
theorem strictOK_encoded (n : Nat) : StrictOK (encodedLength n) (encodedLength n - realChars n) := by
  unfold StrictOK encodedLength realChars
  omega

theorem decodedLength_realChars (n : Nat) : decodedLength (realChars n) = n := by
  unfold decodedLength realChars
  omega

/-- R72 for the block: B32DEC of a text gives back the bytes it stands for, in either mode. -/
theorem execB32dec_encodeBytes (hcap : s.inLen.toNat ≤ s.cfg.inCap) (hlen : s.inLen.toNat = encodedLength bs.length)
    (hread : s.inBuf.readBytes 0 s.inLen.toNat = .ok (encodeBytes bs)) (hroom : bs.length ≤ s.cfg.outCap) :
    execB32dec strict s = .next (succeed (writeOut bs s)) := by
  obtain ⟨vs, htext, hvs, hbits⟩ := encodeBytes_eq_symbols_then_pads bs
  have hpads : padRun (encodeBytes bs) = encodedLength bs.length - realChars bs.length := by
    rw [htext, padRun_append_pads, padRun_map_alph, Nat.zero_add]
  have hreal : s.inLen.toNat - padRun (encodeBytes bs) = realChars bs.length := by
    rw [hpads, hlen]
    unfold encodedLength realChars
    omega
  have hsyms : symValues 0 ((encodeBytes bs).take (s.inLen.toNat - padRun (encodeBytes bs))) = .ok vs := by
    rw [hreal, htext, List.take_left' (by rw [List.length_map, hvs]), symValues_map_alph]
  have hpack : packBits (symBits vs) = bs :=
    packBits_eq (by rw [symBits_length, hvs]; exact decodedLength_realChars _) hbits
  have hdone := execB32dec_succeeds (strict := strict) hcap hread hsyms
    (fun _ => by rw [hpads, hlen]; exact strictOK_encoded _) (by rwa [hreal, decodedLength_realChars])
  rwa [hpack] at hdone

/-- Settles O17: the text B32ENC leaves in OUT is the one B32DEC reads from IN. -/
theorem base32RoundTrip : Obligations.Base32RoundTrip := by
  intro s strict hlegal hcap hw hout hin
  obtain ⟨-, -, -, -, hmax, -, -⟩ := hlegal
  have hbytes : (input s s.inLen.toNat).length = s.inLen.toNat := input_length ..
  generalize hbs : input s s.inLen.toNat = bs at hbytes
  have hread : s.inBuf.readBytes 0 s.inLen.toNat = .ok bs := hbs ▸ readBytes_of_writtenInput hw
  have hlen : (encodeBytes bs).length = 8 * ((s.inLen.toNat + 4) / 5) := by
    rw [encodeBytes_length, hbytes, encodedLength]
  refine ⟨_, execB32enc_next.mpr (.inr ⟨hcap, .inr ⟨hout, bs, hread, rfl⟩⟩), rfl, fun u hcfg hu hcopy => ?_⟩
  have hu' : u.inLen.toNat = (encodeBytes bs).length := by
    rw [hu, succeed_outLen, outLen_writeOut (by omega)]
  have hutext : u.inBuf.readBytes 0 u.inLen.toNat = .ok (encodeBytes bs) := by
    refine (readBytes_eq_ok_iff ..).mpr ⟨hu'.symm, fun i hi => ?_⟩
    rw [Nat.zero_add, hcopy i (hu ▸ hi), read_succeed_writeOut (by omega)]
  have hdone : execB32dec strict u = .next (succeed (writeOut bs u)) :=
    execB32dec_encodeBytes (by rw [hcfg]; omega) (hu'.trans (encodeBytes_length bs)) hutext (by rw [hcfg]; omega)
  refine ⟨_, hdone, rfl, ?_, fun a ha => ?_⟩
  · rw [succeed_outLen, writeOut_outLen, hbytes, BitVec.ofNat_toNat, BitVec.setWidth_eq]
  · obtain ⟨-, hbytesRead⟩ := (readBytes_eq_ok_iff ..).mp hread
    rw [read_succeed_writeOut (by omega), ← hbytesRead a ha, Nat.zero_add]

/-! ### Letter case (R73) -/

theorem read_map_fold (m : Memory) (a : Nat) :
    Memory.read (m.map fun c => (c.1, fold c.2)) a = (m.read a).map fold := by
  induction m with
  | nil => rfl
  | cons c m ih =>
    simp only [List.map_cons, Memory.read, ih]
    split <;> rfl

theorem readBytes_map_fold (m : Memory) (a n : Nat) :
    Memory.readBytes (m.map fun c => (c.1, fold c.2)) a n = (m.readBytes a n).map (List.map fold) := by
  induction n generalizing a with
  | zero => rfl
  | succ n ih =>
    simp only [Memory.readBytes, read_map_fold, ih]
    cases m.read a with
    | none => rfl
    | some b => cases m.readBytes (a + 1) n <;> rfl

theorem padRun_map_fold (bs : List Byte) : padRun (bs.map fold) = padRun bs := by
  have hpad : ((· == padChar) ∘ fold : Byte → Bool) = (· == padChar) := by
    funext c
    rw [Function.comp_apply, Bool.eq_iff_iff, beq_iff_eq, beq_iff_eq, fold_eq_pad]
  rw [padRun, ← List.map_reverse, List.takeWhile_map, List.length_map, hpad, padRun]

theorem symValues_map_fold (i : Nat) (bs : List Byte) : symValues i (bs.map fold) = symValues i bs := by
  induction bs generalizing i with
  | nil => rfl
  | cons b bs ih => simp only [List.map_cons, symValues, fold_fold, ih]

/-- Settles O18: folding changes neither the pad run nor a symbol value, so every check answers as before. -/
theorem decodingIgnoresLetterCase : Obligations.DecodingIgnoresLetterCase := by
  intro s strict
  simp only [exec_b32dec, execB32dec, withInLen, withInput, readBytes_map_fold]
  by_cases hcap : s.cfg.inCap < s.inLen.toNat
  · simp only [if_pos hcap]
    rfl
  · simp only [if_neg hcap]
    cases s.inBuf.readBytes 0 s.inLen.toNat with
    | error i => rfl
    | ok bs =>
      simp only [Except.map, padRun_map_fold, ← List.map_take, symValues_map_fold]
      cases symValues 0 (bs.take (s.inLen.toNat - padRun bs)) with
      | error i => rfl
      | ok vs =>
        by_cases hpad : strict = true ∧ ¬ StrictOK s.inLen.toNat (padRun bs)
        · simp only [if_pos hpad]
          rfl
        · simp only [if_neg hpad, withRoom]
          split <;> rfl

end Sys2Proof.Proofs

end
/-! The truncator: what DTRUNC, MODR, DECFMT and OTPFIN compute, their rules, their sequence and the ranges of their
results (41_hotp_truncate.md). -/

section

namespace Sys2Proof.Proofs

open Sys2Proof.Machine Sys2Proof.Machine.Laws Sys2Proof.Claims

variable {s t : State} {alg : HashAlg} {n d i v : Nat}

/-! ### The checks -/

theorem digestLength_of_mem {e : HashAlg × Word × Nat} (he : e ∈ algorithms) : digestLength e.1 = some e.2.2 := by
  revert e
  decide

/-- R74: every digest is long enough to hold the four bytes at any offset. -/
theorem twenty_le_digestLength {e : HashAlg × Word × Nat} (he : e ∈ algorithms) : 20 ≤ e.2.2 := by
  revert e
  decide

theorem not_digitsSupported (h : d = 0 ∨ 10 < d) : ¬ DigitsSupported d := by
  rintro ⟨h₁, h₂⟩
  omega

/-! ### The values -/

/-- A byte appended below a number of any width. -/
theorem toNat_append_byte {m : Nat} (x : BitVec m) (b : Byte) : (x ++ b).toNat = x.toNat * 2 ^ 8 + b.toNat := by
  rw [BitVec.toNat_append, ← Nat.shiftLeft_add_eq_or_of_lt b.isLt, Nat.shiftLeft_eq]

theorem getD_input (h : i < n) : (input s n).getD i 0#8 = inAt s i := by
  rw [List.getD_eq_getElem?_getD, input_get h, Option.getD_some]

/-- R75: the value DTRUNC takes from a digest, as a number. -/
theorem toNat_truncatedValue_input (s : State) (hn : 20 ≤ n) : (truncatedValue (input s n)).toNat = truncated s n := by
  have hoff : truncationOffset (input s n) = (inAt s (n - 1)).toNat % 16 := by
    rw [truncationOffset, input_length, getD_input (by omega), BitVec.extractLsb'_toNat, Nat.shiftRight_zero]
  have hlow (b : Byte) : (b.extractLsb' 0 7).toNat = b.toNat % 128 := BitVec.extractLsb'_toNat ..
  have hlt := Nat.mod_lt (inAt s (n - 1)).toNat (show 0 < 16 by decide)
  simp only [truncatedValue, truncated, hoff]
  generalize (inAt s (n - 1)).toNat % 16 = off at hlt
  rw [BitVec.toNat_setWidth_of_le (by decide), toNat_append_byte, toNat_append_byte, toNat_append_byte, hlow,
    getD_input (by omega), getD_input (by omega), getD_input (by omega), getD_input (by omega)]
  omega

/-- R80: the truncated value has 31 bits. -/
theorem toNat_truncatedValue_lt (digest : List Byte) : (truncatedValue digest).toNat < 2 ^ 31 := by
  rw [truncatedValue, BitVec.toNat_setWidth_of_le (by decide)]
  exact BitVec.isLt _

/-- R76: the remainder fits CODE. -/
theorem toNat_reduceDigits (w : Word) (d : Nat) : (reduceDigits w d).toNat = w.toNat % 10 ^ d := by
  rw [reduceDigits, BitVec.toNat_ofNat, Nat.mod_eq_of_lt (lt_of_le_of_lt (Nat.mod_le ..) w.isLt)]

theorem toNat_reduceDigits_lt (w : Word) (d : Nat) : (reduceDigits w d).toNat < 10 ^ d := by
  rw [toNat_reduceDigits]
  exact Nat.mod_lt _ (by positivity)

/-! ### The decimal characters (R77, R80) -/

theorem getD_decimalChars (h : i < d) : (decimalChars v d).getD i 0#8 = decimalChar v d i := by
  rw [List.getD_eq_getElem?_getD, decimalChars, decimalChar, BitVec.ofNat_add]
  simp [h]

theorem wroteOut_decimalChars (v d : Nat) (s : State) :
    WroteOut d (decimalChar v d) s (succeed (writeOut (decimalChars v d) s)) := by
  have hout := wroteOut_writeOut (decimalChars v d) s
  rw [decimalChars_length] at hout
  obtain ⟨hframe, habove, hbytes⟩ := hout
  exact ⟨hframe, habove, fun a ha => (hbytes a ha).trans (congrArg some (getD_decimalChars ha))⟩

theorem toNat_decimalChar (v d i : Nat) : (decimalChar v d i).toNat = 0x30 + v / 10 ^ (d - 1 - i) % 10 := by
  rw [decimalChar, BitVec.toNat_ofNat]
  omega

/-- The first `i` of the d decimal characters of `v` spell `v` without its last d - i digits. -/
theorem spelled_eq_div (hv : v < 10 ^ d) (hout : ∀ a, a < d → t.outBuf.read a = some (decimalChar v d a)) (hi : i ≤ d) :
    spelled t i = v / 10 ^ (d - i) := by
  induction i with
  | zero => exact (Nat.div_eq_of_lt hv).symm
  | succ i ih =>
    have hpow : 10 ^ (d - i) = 10 ^ (d - 1 - i) * 10 := by rw [← pow_succ]; congr 1; omega
    have hpred : d - (i + 1) = d - 1 - i := by omega
    rw [spelled, ih (by omega), hout i (by omega), Option.getD_some, toNat_decimalChar, hpow, ← Nat.div_div_eq_div_mul,
      hpred]
    omega

/-- R80: OUT holds digit characters only, and they spell the value rendered. -/
theorem digits_of_wroteOut (hv : v < 10 ^ d) (h : WroteOut d (decimalChar v d) s t) :
    (∀ i, i < d → ∃ b, t.outBuf.read i = some b ∧ 0x30 ≤ b.toNat ∧ b.toNat ≤ 0x39) ∧ spelled t d = v := by
  obtain ⟨-, -, hout⟩ := h
  refine ⟨fun i hi => ⟨_, hout i hi, ?_⟩, ?_⟩
  · rw [toNat_decimalChar]
    omega
  · rw [spelled_eq_div hv hout le_rfl, Nat.sub_self, pow_zero, Nat.div_one]

/-! ### The successful commands -/

theorem execDtrunc_success (h : execDtrunc alg s = .next t) (herr : t.err = false) :
    ∃ n digest, digestLength alg = some n ∧ s.inLen.toNat = n ∧ s.inBuf.readBytes 0 n = .ok digest ∧
      t = succeed (writeVal (truncatedValue digest) s) := by
  rcases execDtrunc_next.mp h with ⟨-, rfl⟩ | ⟨n, halg, ⟨-, rfl⟩ | ⟨hlen, digest, hread, rfl⟩⟩
  · simp at herr
  · simp at herr
  · exact ⟨n, digest, halg, hlen, hread, rfl⟩

theorem execModr_success (h : execModr d s = .next t) (herr : t.err = false) :
    DigitsSupported d ∧ t = succeed (writeCode (reduceDigits s.val d) s) := by
  rcases execModr_next.mp h with ⟨-, rfl⟩ | ⟨hd, rfl⟩
  · simp at herr
  · exact ⟨hd, rfl⟩

theorem execDecfmt_success (h : execDecfmt d s = .next t) (herr : t.err = false) :
    DigitsSupported d ∧ t = succeed (writeOut (decimalChars (s.code.toNat % 10 ^ d) d) s) := by
  rcases execDecfmt_next.mp h with ⟨-, rfl⟩ | ⟨hd, rfl⟩
  · simp at herr
  · exact ⟨hd, rfl⟩

theorem execOtpfin_success (h : execOtpfin alg d s = .next t) (herr : t.err = false) :
    ∃ digest, let v := truncatedValue digest
      t = succeed (writeOut (decimalChars (reduceDigits v d).toNat d) (writeCode (reduceDigits v d) (writeVal v s))) := by
  rcases execOtpfin_next.mp h with ⟨-, rfl⟩ | ⟨n, -, ⟨-, rfl⟩ | ⟨-, ⟨-, rfl⟩ | ⟨-, digest, -, rfl⟩⟩⟩
  · simp at herr
  · simp at herr
  · simp at herr
  · exact ⟨digest, rfl⟩

/-! ### The rule of each command -/

/-- Settles O21: the clauses of R75 are the cases of DTRUNC's answer, and its value is the four bytes at the offset. -/
theorem dtruncRule : Obligations.DtruncRule := by
  refine fun s => ⟨rfl, fun e he => ⟨?_, fun hlen => ?_, fun hlen => ⟨fun i hi => ?_, fun hw => ?_⟩⟩⟩
  · revert e
    decide
  · exact execDtrunc_next.mpr (.inr ⟨_, digestLength_of_mem he, .inl ⟨hlen, rfl⟩⟩)
  · exact execDtrunc_fault.mpr ⟨_, digestLength_of_mem he, hlen, i, readBytes_of_firstUnwritten hi, rfl⟩
  · refine ⟨_, toNat_truncatedValue_input s (twenty_le_digestLength he), ?_⟩
    exact execDtrunc_next.mpr
      (.inr ⟨_, digestLength_of_mem he, .inr ⟨hlen, _, readBytes_of_writtenInput hw, rfl⟩⟩)

/-- Settles O22: the two cases of MODR's answer, and the remainder fits CODE. -/
theorem modrRule : Obligations.ModrRule := by
  refine fun d s hd => ⟨?_, fun hbad => ?_, fun h₁ h₂ => ⟨_, toNat_reduceDigits s.val d, ?_⟩⟩
  · revert d
    decide
  · exact execModr_next.mpr (.inl ⟨not_digitsSupported hbad, rfl⟩)
  · exact execModr_next.mpr (.inr ⟨⟨h₁, h₂⟩, rfl⟩)

/-- Settles O23: the two cases of DECFMT's answer, and the characters it writes. -/
theorem decfmtRule : Obligations.DecfmtRule := by
  refine fun d s hd => ⟨?_, fun hbad => ?_, fun h₁ h₂ => ⟨_, ?_, wroteOut_decimalChars ..⟩⟩
  · revert d
    decide
  · exact execDecfmt_next.mpr (.inl ⟨not_digitsSupported hbad, rfl⟩)
  · exact execDecfmt_next.mpr (.inr ⟨⟨h₁, h₂⟩, rfl⟩)

/-- Settles O24: the clauses of R78 are the cases of OTPFIN's answer, and its results those of its three parts. -/
theorem otpfinRule : Obligations.OtpfinRule := by
  refine fun d s hd => ⟨rfl, fun e he => ⟨?_, fun hbad => ?_, fun h₁ h₂ => ⟨fun hlen => ?_, fun hlen =>
    ⟨fun i hi => ?_, fun hw => ?_⟩⟩⟩⟩
  · revert d e
    decide
  · exact execOtpfin_next.mpr (.inr ⟨_, digestLength_of_mem he, .inl ⟨not_digitsSupported hbad, rfl⟩⟩)
  · exact execOtpfin_next.mpr (.inr ⟨_, digestLength_of_mem he, .inr ⟨⟨h₁, h₂⟩, .inl ⟨hlen, rfl⟩⟩⟩)
  · exact execOtpfin_fault.mpr
      ⟨_, digestLength_of_mem he, ⟨h₁, h₂⟩, hlen, i, readBytes_of_firstUnwritten hi, rfl⟩
  · have hv := toNat_truncatedValue_input s (twenty_le_digestLength he)
    have hdone := execOtpfin_next.mpr
      (.inr ⟨_, digestLength_of_mem he, .inr ⟨⟨h₁, h₂⟩, .inr ⟨hlen, _, readBytes_of_writtenInput hw, rfl⟩⟩⟩)
    exact ⟨_, _, _, hv, hv ▸ toNat_reduceDigits _ d, hdone, wroteOut_decimalChars ..⟩

/-! ### The three parts of OTPFIN, and the ranges of the results -/

/-- Settles O25: DECFMT renders CODE mod 10^d, and the CODE that MODR d leaves is below 10^d. -/
theorem otpfinIsTheThreeInSequence : Obligations.OtpfinIsTheThreeInSequence := by
  intro alg d s a b c ha haerr hb hberr hc hcerr
  obtain ⟨n, digest, halg, hlen, hread, rfl⟩ := execDtrunc_success ha haerr
  obtain ⟨hd, rfl⟩ := execModr_success hb hberr
  obtain ⟨-, rfl⟩ := execDecfmt_success hc hcerr
  refine execOtpfin_next.mpr (.inr ⟨n, halg, .inr ⟨hd, .inr ⟨hlen, digest, hread, ?_⟩⟩⟩)
  simp only [succeed_code, writeCode_code, succeed_val, writeVal_val, Nat.mod_eq_of_lt (toNat_reduceDigits_lt _ d)]
  rfl

/-- Settles O26: the ranges of the three parts, and the digits spell the value that was rendered. -/
theorem truncatorResultsAreInRange : Obligations.TruncatorResultsAreInRange := by
  refine fun alg d s t herr => ⟨fun h => ?_, fun h => ?_, fun h => ?_, fun h => ?_⟩
  · obtain ⟨n, digest, -, -, -, rfl⟩ := execDtrunc_success h herr
    exact toNat_truncatedValue_lt digest
  · obtain ⟨-, rfl⟩ := execModr_success h herr
    exact toNat_reduceDigits_lt s.val d
  · obtain ⟨-, rfl⟩ := execDecfmt_success h herr
    exact digits_of_wroteOut (Nat.mod_lt _ (by positivity)) (wroteOut_decimalChars ..)
  · obtain ⟨digest, rfl⟩ := execOtpfin_success h herr
    have hcode := toNat_reduceDigits_lt (truncatedValue digest) d
    exact ⟨toNat_truncatedValue_lt digest, hcode, digits_of_wroteOut hcode (wroteOut_decimalChars ..)⟩

end Sys2Proof.Proofs

end
/-! A command repeated at once: it ends as it did, and its report and results are in place already (41_hotp_truncate.md
R79, 60_exceptions.md R88). -/

section

namespace Sys2Proof.Proofs

open Sys2Proof.Machine Sys2Proof.Machine.Laws Sys2Proof.Claims

variable {i : Instr} {s t : State} {bs : List Byte}

/-- No command writes what its own row reads (R35). -/
theorem agreeOnReads_raiseError (i : Instr) (e : ErrorKind) (info : Nat) (s : State) :
    AgreeOnReads i s (raiseError e info s) := by
  cases i <;> simp [AgreeOnReads]

theorem agreeOnReads_succeed (r : Results i) (s : State) : AgreeOnReads i s (succeed (writeResults i r s)) := by
  cases i with
  | b32enc => exact ⟨rfl, rfl, fun _ _ => rfl⟩
  | b32dec strict => exact ⟨rfl, rfl, fun _ _ => rfl⟩
  | tctr => exact ⟨rfl, rfl, rfl⟩
  | ctrser => exact ⟨rfl, rfl⟩
  | dtrunc alg => exact ⟨rfl, rfl, fun _ _ => rfl⟩
  | modr d => exact ⟨rfl, rfl⟩
  | decfmt d => exact ⟨rfl, rfl⟩
  | otpfin alg d => exact ⟨rfl, rfl, fun _ _ => rfl⟩

/-- Writing a run of bytes a second time changes nothing: the canonical form has one list for each content. -/
theorem writeBytes_writeBytes {m : Memory} {cap a : Nat} (hm : m.wf cap) (h : a + bs.length ≤ cap) :
    (m.writeBytes a bs).writeBytes a bs = m.writeBytes a bs := by
  have honce := writeBytes_wf hm h
  refine wf_ext (writeBytes_wf honce h) honce fun x => ?_
  by_cases hx : a ≤ x ∧ x < a + bs.length
  · obtain ⟨h₁, h₂⟩ := hx
    rw [read_writeBytes_inside h₁ h₂, read_writeBytes_inside h₁ h₂]
  · exact read_writeBytes_outside (by omega)

theorem writeOut_again (h : s.Inv) (hfits : bs.length ≤ s.cfg.outCap) :
    succeed (writeOut bs (succeed (writeOut bs s))) = succeed (writeOut bs s) := by
  obtain ⟨-, hout, -, -⟩ := h.buffers
  have hbytes := writeBytes_writeBytes hout (a := 0) (bs := bs) (by omega)
  simp only [succeed, writeOut, hbytes]

theorem writeResults_again (h : s.Inv) (r : Results i) (hfits : (resultBytes i r).length ≤ s.cfg.outCap) :
    succeed (writeResults i r (succeed (writeResults i r s))) = succeed (writeResults i r s) := by
  cases i with
  | b32enc => exact writeOut_again h hfits
  | b32dec strict => exact writeOut_again h hfits
  | tctr => rfl
  | ctrser => exact writeOut_again h hfits
  | dtrunc alg => rfl
  | modr d => rfl
  | decfmt d => exact writeOut_again h hfits
  | otpfin alg d => exact writeOut_again (inv_writeCode (inv_writeVal h r.1) r.2.1) hfits

/-- Settles O12: the command ends alike on the state it left, and that ending's effect is there already. -/
theorem repeatingACommandChangesNothing : Obligations.RepeatingACommandChangesNothing := by
  intro i s t hinv h
  obtain ⟨e, hfits, he⟩ := exec_endsAlike i s
  rw [he s (agreeOnReads_refl i s)] at h
  cases e with
  | stop f => cases h
  | report e info =>
    cases h
    exact he _ (agreeOnReads_raiseError i e info s)
  | done r =>
    cases h
    obtain ⟨-, -, -, hcap, -, -, -⟩ := hinv.cfg
    have hagain := writeResults_again hinv r (le_trans hfits (by omega))
    exact (he _ (agreeOnReads_succeed r s)).trans (congrArg Host.Outcome.next hagain)

end Sys2Proof.Proofs

end
/-! The time counter: the rules of TCTR and CTRSER, and how the host reads the counter's bytes back
(42_time_counter.md). -/

section

namespace Sys2Proof.Proofs

open Sys2Proof.Machine Sys2Proof.Machine.Laws Sys2Proof.Claims

variable {s t : State} {n k i : Nat} {byte : Nat → Byte}

/-! ### TCTR (R81) -/

/-- The quotient fits CTR: it is no larger than T. -/
theorem toNat_timeQuotient (t : DWord) (p : Nat) : (BitVec.ofNat 64 (t.toNat / p)).toNat = t.toNat / p := by
  rw [BitVec.toNat_ofNat, Nat.mod_eq_of_lt (lt_of_le_of_lt (Nat.div_le_self ..) t.isLt)]

/-- Settles O19: the two cases of TCTR's answer, and the quotient fits CTR. -/
theorem tctrRule : Obligations.TctrRule := by
  refine ⟨rfl, fun s => ⟨fun hzero => ?_, fun hne => ⟨_, toNat_timeQuotient s.t s.period.toNat, ?_⟩⟩⟩
  · exact execTctr_next.mpr (.inl ⟨BitVec.eq_of_toNat_eq hzero, rfl⟩)
  · exact execTctr_next.mpr (.inr ⟨fun hp => hne (congrArg BitVec.toNat hp), rfl⟩)

/-! ### CTRSER (R82) -/

/-- R82: the byte at index i is byte 7 - i of the counter, counted from the least significant. -/
theorem getD_counterBytes (c : DWord) (hi : i < 8) :
    (counterBytes c).getD i 0#8 = BitVec.ofNat 8 (c.toNat / 256 ^ (7 - i)) := by
  have hget : (counterBytes c).getD i 0#8 = c.extractLsb' (56 - 8 * i) 8 := by
    simp [counterBytes, List.getD_eq_getElem?_getD, hi]
  have hshift : 56 - 8 * i = 8 * (7 - i) := by omega
  apply BitVec.eq_of_toNat_eq
  rw [hget, hshift, BitVec.extractLsb'_toNat, BitVec.toNat_ofNat, Nat.shiftRight_eq_div_pow, Nat.pow_mul]

theorem wroteOut_counterBytes (s : State) :
    WroteOut 8 (fun i => BitVec.ofNat 8 (s.ctr.toNat / 256 ^ (7 - i))) s
      (succeed (writeOut (counterBytes s.ctr) s)) := by
  have hout := wroteOut_writeOut (counterBytes s.ctr) s
  rw [counterBytes_length] at hout
  obtain ⟨hframe, habove, hbytes⟩ := hout
  exact ⟨hframe, habove, fun a ha => (hbytes a ha).trans (congrArg some (getD_counterBytes s.ctr ha))⟩

/-- A read of an OUT word below OUT_LEN, after a command that wrote OUT, answers the four bytes, the lower index in the
lower bits (R38). -/
theorem hostStep_read_wroteOut (h : WroteOut n byte s t) (hc : s.cfg.Legal) (hcap : n ≤ s.cfg.outCap)
    (hk : 4 * k + 4 ≤ n) :
    ∃ u v, hostStep (.read (t.cfg.base + (0x800 + 4 * k)) 4) t = .next u ∧ u.reply = .data v ∧
      ∀ j, j < 4 → byteOfWord v j = byte (4 * k + j) := by
  obtain ⟨hframe, -, hbytes⟩ := h
  have hidle : t.phase = .idle := congrArg State.phase hframe
  have hcfg : t.cfg = s.cfg := by
    rw [hframe]
    rfl
  obtain ⟨-, -, -, -, hout, -, -⟩ := hc
  refine ⟨_, _, hostStep_read_located (by omega) (locate_of_outWord (k := k) (by rw [hcfg]; omega) (by omega)), rfl,
    fun j hj => ?_⟩
  rw [readLoc_idle hidle, byteOfWord_outWord t k hj, outByte, hbytes _ (by omega), Option.getD_some]

/-- Settles O20: CTRSER's one answer holds the counter's bytes in OUT, where R6 leaves room for all eight. -/
theorem ctrserRule : Obligations.CtrserRule := by
  refine ⟨rfl, fun s => ?_⟩
  have hout := wroteOut_counterBytes s
  refine ⟨_, execCtrser_next.mpr rfl, hout, fun hc k hk => ?_⟩
  have ⟨_, _, _, hroom, _⟩ := hc
  exact hostStep_read_wroteOut hout hc (by omega) (by omega)

end Sys2Proof.Proofs

end
/-! What a failing command reports: its report and nothing else, each error on its cause and with its detail
(60_exceptions.md R85, R86, R89). -/

section

namespace Sys2Proof.Proofs

open Sys2Proof.Machine Sys2Proof.Machine.Laws Sys2Proof.Claims

variable {s t : State} {strict : Bool} {alg : HashAlg} {bs : List Byte} {n d i : Nat}

/-! ### A failing command -/

/-- The 16 bits a report holds as its detail give the same report again. -/
theorem raiseError_eq_failed (e : ErrorKind) (info : Nat) (s : State) :
    raiseError e info s = failed (errorCode e) (BitVec.ofNat 16 info).toNat s := by
  rw [failed, BitVec.ofNat_toNat, BitVec.setWidth_eq]
  rfl

/-- Settles O7: a command that leaves ERR set ended with its report, which is all that `failed` writes. -/
theorem failingCommandWritesOnlyItsReport : Obligations.FailingCommandWritesOnlyItsReport := by
  intro i s t h herr
  rcases exec_ends h with ⟨e, info, rfl⟩ | ⟨r, rfl, -⟩
  · exact ⟨raiseError_eq_failed e info s, statusWord_idle rfl⟩
  · simp at herr

/-! ### The details and the causes of R85 -/

/-- A detail below 2^16 is held in full (R21). -/
theorem toNat_errInfo_raiseError {info : Nat} (e : ErrorKind) (h : info < 2 ^ 16) :
    (raiseError e info s).errInfo.toNat = info := by
  rw [raiseError_errInfo, BitVec.toNat_ofNat, Nat.mod_eq_of_lt h]

theorem digestLength_eq_none (h : digestLength alg = none) : alg = .unsupported := by
  cases alg with
  | unsupported => rfl
  | sha1 | sha256 | sha512 => cases h

theorem not_digestLengthOK (halg : digestLength alg = some n) (hlen : s.inLen.toNat ≠ n) : ¬ DigestLengthOK alg s := by
  rintro ⟨e, he, rfl, hok⟩
  have hn : e.2.2 = n := Option.some.inj ((digestLength_of_mem he).symm.trans halg)
  exact hlen (hok.trans hn)

theorem digitCount_unsupported (h : ¬ DigitsSupported d) : d = 0 ∨ 10 < d := by
  rw [DigitsSupported] at h
  omega

/-! ### The input a command has read -/

theorem eq_input_of_readBytes (h : s.inBuf.readBytes 0 n = .ok bs) : bs = input s n := by
  obtain ⟨hlen, hread⟩ := (readBytes_eq_ok_iff ..).mp h
  have hw : Written s n := fun i hi => by
    rw [State.wr, ← Nat.zero_add i, hread i hi, List.getElem?_eq_getElem (by omega), Option.isSome_some]
  exact Except.ok.inj (h.symm.trans (readBytes_of_writtenInput hw))

theorem isPadRun_input (s : State) (n : Nat) : IsPadRun s n (padRun (input s n)) := by
  obtain ⟨hle, hpads, hstop⟩ := padRun_isRun (input s n)
  rw [input_length] at hle hpads hstop
  refine ⟨hle, fun j hj hrun => ?_, fun hp heq => hstop hp ?_⟩
  · have hpad := hpads j hrun hj
    rw [input_get hj] at hpad
    exact Option.some.inj hpad
  · rw [input_get (by omega), heq, padChar]

/-- The scan of IN[0..n) stops at the first character that is no symbol (R69). -/
theorem notSymbol_of_symValues (h : symValues 0 (input s n) = .error i) :
    i < n ∧ symbolAt s i = none ∧ AllSymbols s i := by
  obtain ⟨k, hik, hbad, hgood⟩ := (symValues_eq_error_iff ..).mp h
  obtain rfl : i = k := by omega
  have hi : i < n := by
    by_contra hn
    rw [List.getElem?_eq_none (by simpa using hn)] at hbad
    cases hbad
  rw [input_get hi] at hbad
  refine ⟨hi, Option.some.inj hbad, fun j hj => ?_⟩
  obtain ⟨c, hc, hsym⟩ := hgood j hj
  rw [input_get (by omega)] at hc
  cases hc
  exact hsym

/-! ### The errors of each command -/

theorem execB32enc_reports (hc : s.cfg.Legal) (h : execB32enc s = .next t) (herr : t.err = true) :
    MayReport .b32enc s t.errCode t.errInfo := by
  obtain ⟨-, hin, -⟩ := hc
  rcases execB32enc_next.mp h with ⟨hlong, rfl⟩ | ⟨hcap, ⟨hroom, rfl⟩ | ⟨-, bs, -, rfl⟩⟩
  · exact .inl ⟨rfl, hlong, toNat_errInfo_raiseError _ s.inLen.isLt⟩
  · have hfits : encodedLength s.inLen.toNat < 2 ^ 16 := by
      rw [encodedLength]
      omega
    exact .inr ⟨rfl, hroom, toNat_errInfo_raiseError _ hfits⟩
  · simp at herr

/-- No detail of B32DEC is larger than IN_LEN, so each fits ERRINFO whatever the capacities are. -/
theorem execB32dec_reports (h : execB32dec strict s = .next t) (herr : t.err = true) :
    MayReport (.b32dec strict) s t.errCode t.errInfo := by
  have hn := s.inLen.isLt
  rcases execB32dec_next.mp h with ⟨hlong, rfl⟩ | ⟨-, bs, hread, hchecks⟩
  · exact .inl ⟨rfl, hlong, toNat_errInfo_raiseError _ hn⟩
  · obtain rfl := eq_input_of_readBytes hread
    have hrun := isPadRun_input s s.inLen.toNat
    rw [take_input (Nat.sub_le ..)] at hchecks
    generalize padRun (input s s.inLen.toNat) = p at hrun hchecks
    refine .inr ⟨p, hrun, ?_⟩
    obtain ⟨hp, -⟩ := hrun
    rcases hchecks with ⟨i, hstop, rfl⟩ | ⟨vs, -, ⟨hs, hpad, rfl⟩ | ⟨-, ⟨hroom, rfl⟩ | ⟨-, rfl⟩⟩⟩
    · obtain ⟨hi, hbad, hgood⟩ := notSymbol_of_symValues hstop
      rw [toNat_errInfo_raiseError _ (by omega)]
      exact .inl ⟨rfl, hi, hbad, hgood⟩
    · exact .inr (.inl ⟨rfl, hs, strictOK_iff.not.mp hpad, toNat_errInfo_raiseError _ (by omega)⟩)
    · have hfits : decodedLength (s.inLen.toNat - p) < 2 ^ 16 := by
        rw [decodedLength]
        omega
      exact .inr (.inr ⟨rfl, hroom, toNat_errInfo_raiseError _ hfits⟩)
    · simp at herr

theorem execTctr_reports (h : execTctr s = .next t) (herr : t.err = true) : MayReport .tctr s t.errCode t.errInfo := by
  rcases execTctr_next.mp h with ⟨hzero, rfl⟩ | ⟨-, rfl⟩
  · exact ⟨rfl, congrArg BitVec.toNat hzero, rfl⟩
  · simp at herr

theorem execDtrunc_reports (h : execDtrunc alg s = .next t) (herr : t.err = true) :
    MayReport (.dtrunc alg) s t.errCode t.errInfo := by
  rcases execDtrunc_next.mp h with ⟨halg, rfl⟩ | ⟨n, halg, ⟨hlen, rfl⟩ | ⟨-, bs, -, rfl⟩⟩
  · exact .inl ⟨rfl, digestLength_eq_none halg, rfl⟩
  · exact .inr ⟨rfl, not_digestLengthOK halg hlen, toNat_errInfo_raiseError _ s.inLen.isLt⟩
  · simp at herr

theorem execModr_reports (h : execModr d s = .next t) (herr : t.err = true) :
    MayReport (.modr d) s t.errCode t.errInfo := by
  rcases execModr_next.mp h with ⟨hd, rfl⟩ | ⟨-, rfl⟩
  · exact ⟨rfl, digitCount_unsupported hd, rfl⟩
  · simp at herr

theorem execDecfmt_reports (h : execDecfmt d s = .next t) (herr : t.err = true) :
    MayReport (.decfmt d) s t.errCode t.errInfo := by
  rcases execDecfmt_next.mp h with ⟨hd, rfl⟩ | ⟨-, rfl⟩
  · exact ⟨rfl, digitCount_unsupported hd, rfl⟩
  · simp at herr

theorem execOtpfin_reports (h : execOtpfin alg d s = .next t) (herr : t.err = true) :
    MayReport (.otpfin alg d) s t.errCode t.errInfo := by
  rcases execOtpfin_next.mp h with ⟨halg, rfl⟩ | ⟨n, halg, ⟨hd, rfl⟩ | ⟨-, ⟨hlen, rfl⟩ | ⟨-, bs, -, rfl⟩⟩⟩
  · exact .inl ⟨rfl, digestLength_eq_none halg, rfl⟩
  · exact .inr (.inl ⟨rfl, digitCount_unsupported hd, rfl⟩)
  · exact .inr (.inr ⟨rfl, not_digestLengthOK halg hlen, toNat_errInfo_raiseError _ s.inLen.isLt⟩)
  · simp at herr

/-- Settles O9: the failing cases of each command are its rows of R85, and CTRSER has none. -/
theorem commandsReportOnlyTheirErrors : Obligations.CommandsReportOnlyTheirErrors := by
  intro i s t hc h herr
  cases i with
  | b32enc => exact execB32enc_reports hc h herr
  | b32dec strict => exact execB32dec_reports h herr
  | tctr => exact execTctr_reports h herr
  | ctrser =>
    cases execCtrser_next.mp h
    simp at herr
  | dtrunc alg => exact execDtrunc_reports h herr
  | modr d => exact execModr_reports h herr
  | decfmt d => exact execDecfmt_reports h herr
  | otpfin alg d => exact execOtpfin_reports h herr

end Sys2Proof.Proofs

end
/-! The fault set and the parameters: what every event keeps, and where a step with a recorded fault stops
(60_exceptions.md R92, 70_reset_and_hazards.md R100). -/

section

namespace Sys2Proof.Proofs

open Sys2Proof.Machine Sys2Proof.Machine.Laws Sys2Proof.Claims

variable {i : Instr} {s t : State} {op : HostOp} {l : Loc} {v w : Word}

/-! ### Host events -/

theorem recordFault_keeps_faults {f : Fault} (g : Fault) (h : f ∈ s.faults) : f ∈ (recordFault g s).faults := by
  rw [recordFault_faults]
  split
  · exact h
  · exact List.mem_cons_of_mem g h

theorem writeLoc_cfg (hw : writeLoc l v s = some t) : t.cfg = s.cfg := by
  rcases writeLoc_some hw with ⟨-, rfl⟩ | ⟨-, rfl⟩ | ⟨-, rfl⟩ | ⟨-, rfl⟩ | ⟨-, rfl⟩ | ⟨-, rfl⟩ | ⟨-, rfl⟩ | ⟨-, rfl⟩ |
    ⟨-, rfl⟩ | ⟨k, -, rfl⟩
  all_goals rfl

theorem hostPoll_cfg (s : State) : (hostPoll s).cfg = s.cfg := by
  rw [hostPoll_eq]
  split <;> rfl

theorem hostPoll_faults (s : State) : (hostPoll s).faults = s.faults := by
  rw [hostPoll_eq]
  split <;> rfl

/-- The only host event that touches the fault set is a refused access, which adds to it. -/
theorem hostStep_keeps_cfg_and_faults (h : hostStep op s = .next t) :
    t.cfg = s.cfg ∧ ∀ f, f ∈ s.faults → f ∈ t.faults := by
  rcases hostStep_next h with rfl | ⟨off, rfl⟩ | ⟨l, rfl⟩ | ⟨-, addr, v, off, l, s', -, -, -, hw, rfl⟩ | ⟨-, rfl⟩ |
    ⟨-, rfl⟩
  · exact ⟨rfl, fun _ => id⟩
  · exact ⟨rfl, fun _ => recordFault_keeps_faults _⟩
  · exact ⟨rfl, fun _ => id⟩
  · exact ⟨(setReply_cfg s' _).trans (writeLoc_cfg hw), fun _ hf => (writeLoc_faults hw).symm ▸ hf⟩
  · exact ⟨hostPoll_cfg s, fun _ hf => (hostPoll_faults s).symm ▸ hf⟩
  · exact ⟨rfl, fun _ => id⟩

/-! ### Complete -/

theorem writeResults_cfg (r : Results i) (s : State) : (writeResults i r s).cfg = s.cfg := by
  cases i <;> rfl

theorem writeResults_faults (r : Results i) (s : State) : (writeResults i r s).faults = s.faults := by
  cases i <;> rfl

theorem exec_keeps_cfg_and_faults (h : exec i s = .next t) : t.cfg = s.cfg ∧ t.faults = s.faults := by
  rcases exec_next h with ⟨e, info, rfl⟩ | ⟨r, rfl, -⟩
  · exact ⟨rfl, rfl⟩
  · exact ⟨writeResults_cfg r s, writeResults_faults r s⟩

theorem complete_keeps_cfg_and_faults (h : complete w s = .next t) : t.cfg = s.cfg ∧ t.faults = s.faults := by
  rcases complete_next h with ⟨i, -, hexec⟩ | rfl
  · exact exec_keeps_cfg_and_faults hexec
  · exact ⟨rfl, rfl⟩

/-! ### A step with a recorded fault -/

theorem step_stops_at_recorded_fault {f : Fault} (hf : f ∈ s.faults) : ∃ g, step s = .fault g ∧ g ∈ s.faults := by
  obtain ⟨g, rest, hfaults⟩ := List.exists_cons_of_ne_nil (List.ne_nil_of_mem hf)
  exact ⟨g, step_of_fault hfaults, hfaults ▸ List.mem_cons_self⟩

/-- Settles O44: what host events and Complete keep, and where a step with a recorded fault stops. -/
theorem faultsAndParametersAreNeverCleared : Obligations.FaultsAndParametersAreNeverCleared :=
  ⟨fun _ _ _ => hostStep_keeps_cfg_and_faults, fun _ _ _ => complete_keeps_cfg_and_faults,
    fun _ _ => step_stops_at_recorded_fault⟩

end Sys2Proof.Proofs

end
/-! Where a command stops: the one model fault of a command, and where it does not occur (60_exceptions.md R92,
70_reset_and_hazards.md R101). -/

section

namespace Sys2Proof.Proofs

open Sys2Proof.Machine Sys2Proof.Machine.Laws Sys2Proof.Claims

variable {i : Instr} {s : State} {f : Fault} {n k : Nat}

/-- The read of IN[0..n) stops at the lowest unwritten byte. -/
theorem firstUnwritten_of_readBytes (h : s.inBuf.readBytes 0 n = .error k) : FirstUnwritten s n k := by
  obtain ⟨-, hk, hnone, hbelow⟩ := (readBytes_eq_error_iff ..).mp h
  exact ⟨by omega, by simp [State.wr, hnone], fun j hj => hbelow j (Nat.zero_le j) hj⟩

/-- A command that stops has met an unwritten byte of its input; those that consume no input never stop. -/
theorem exec_fault (h : exec i s = .fault f) : ∃ k, f = .unwrittenInput k ∧ FirstUnwritten s (consumed i s) k := by
  cases i with
  | b32enc =>
    obtain ⟨-, -, k, hread, rfl⟩ := execB32enc_fault.mp h
    exact ⟨k, rfl, firstUnwritten_of_readBytes hread⟩
  | b32dec strict =>
    obtain ⟨-, k, hread, rfl⟩ := execB32dec_fault.mp h
    exact ⟨k, rfl, firstUnwritten_of_readBytes hread⟩
  | tctr => exact absurd h execTctr_ne_fault
  | ctrser => exact absurd h execCtrser_ne_fault
  | dtrunc alg =>
    obtain ⟨_, -, rfl, k, hread, rfl⟩ := execDtrunc_fault.mp h
    exact ⟨k, rfl, firstUnwritten_of_readBytes hread⟩
  | modr d => exact absurd h execModr_ne_fault
  | decfmt d => exact absurd h execDecfmt_ne_fault
  | otpfin alg d =>
    obtain ⟨_, -, -, rfl, k, hread, rfl⟩ := execOtpfin_fault.mp h
    exact ⟨k, rfl, firstUnwritten_of_readBytes hread⟩

/-- No ending of a command is a refusal. -/
theorem exec_next_or_fault (i : Instr) (s : State) : (∃ t, exec i s = .next t) ∨ ∃ f, exec i s = .fault f := by
  obtain ⟨e, -, he⟩ := exec_endsAlike i s
  rw [he s (agreeOnReads_refl i s)]
  cases e with
  | stop f => exact .inr ⟨f, rfl⟩
  | report e info => exact .inl ⟨_, rfl⟩
  | done r => exact .inl ⟨_, rfl⟩

/-- Settles O13: the fault of each command that has one, and the kinds of ending there are. -/
theorem commandsStopOnlyOnUnwrittenInput : Obligations.CommandsStopOnlyOnUnwrittenInput :=
  fun i s => ⟨fun _ => exec_fault, exec_next_or_fault i s⟩

end Sys2Proof.Proofs

end
/-! Reset, and the host's accesses while a command is in progress (70_reset_and_hazards.md R100, R104, R105). -/

section

namespace Sys2Proof.Proofs

open Sys2Proof.Machine Sys2Proof.Machine.Laws Sys2Proof.Claims

variable {s : State} {w : Word}

/-! ### Reset (R100) -/

theorem inv_resetWith {c : Config} (h : c.Legal) : (State.resetWith c).Inv where
  cfg := h
  report := ⟨nofun, fun _ _ => ⟨rfl, rfl⟩, nofun, by simp [State.resetWith]⟩
  phase := nofun
  buffers := ⟨nil_wf, nil_wf, Nat.zero_le _, nofun⟩

/-- Settles O41: the reference parameters are legal too. -/
theorem resetHasTheInvariant : Obligations.ResetHasTheInvariant :=
  ⟨inv_resetWith (by decide), fun _ => inv_resetWith⟩

/-- Settles O38: the reset words are what the registers of the idle block then show. -/
theorem resetGivesTheResetValues : Obligations.ResetGivesTheResetValues := by
  intro s
  refine ⟨hostReset s, rfl, rfl, rfl, rfl, fun _ => rfl, fun _ => rfl, fun e he => ?_⟩
  have hsame : registerWords (hostReset s) = registerWords State.reset := rfl
  have hwords : registerWords State.reset = resetWords := rfl
  rw [← hwords, ← hsame] at he
  obtain ⟨u, hread, hreply, -⟩ := registerReadsShowTheirValue (hostReset s) rfl e he
  exact ⟨u, hread, hreply⟩

/-! ### Writes while busy (R104) -/

/-- Settles O35: every offset of the window, whatever the width. -/
theorem writeWhileBusyIsAHazard : Obligations.WriteWhileBusyIsAHazard := by
  intro s w off width v hbusy hlt
  rw [hostStep_write_window s hlt, hostWrite_busy hbusy]

/-! ### Reads while busy (R105) -/

/-- DONE and ERR are 0 while a command is in progress. -/
theorem statusWord_busy (h : s.Inv) (hbusy : s.phase = .busy w) : statusWord s = 0b001#32 := by
  obtain ⟨-, hdone, herr⟩ := h.phase w hbusy
  rw [statusWord, isBusy_of_busy hbusy, hdone, herr]
  rfl

/-- STATUS shows its word in any phase (R19, R105). -/
theorem readLoc_status (s : State) : readLoc s (.reg .status) = statusWord s := by
  simp only [readLoc, busyRead, idleRead, regWord, ite_self]

/-- ID shows its constant in any phase (R17, R105). -/
theorem readLoc_id (s : State) : readLoc s (.reg .id) = idWord := by
  simp only [readLoc, busyRead, idleRead, regWord, ite_self]

/-- A read of a register answers the word it shows and changes nothing in the block. -/
theorem read_register_shows {o : Nat} {r : Reg} {v : Word} (hr : (o, r) ∈ registerMap)
    (hv : readLoc s (.reg r) = v) :
    ∃ t, hostStep (.read (s.cfg.base + o) 4) s = .next t ∧ t.reply = .data v ∧ SameBlock s t :=
  ⟨_, hostStep_read_register s hr, by rw [setReply_reply, hv], sameBlock_reply s _⟩

/-- Settles O36: the three registers with a value while busy; every other read is permitted as in any phase. -/
theorem readsWhileBusy : Obligations.ReadsWhileBusy := by
  intro s w h hbusy
  obtain ⟨hcmd, -, -⟩ := h.phase w hbusy
  exact ⟨read_register_shows (r := .status) (by decide) ((readLoc_status s).trans (statusWord_busy h hbusy)),
    read_register_shows (r := .cmd) (by decide) ((readLoc_cmd s).trans hcmd),
    read_register_shows (r := .id) (by decide) (readLoc_id s),
    fun off hoff => (otherAccessesArePermitted s off 0#32 h.cfg).1 hoff⟩

end Sys2Proof.Proofs

end
/-! The POLL loop: each POLL before Complete takes one from the delay and leaves the command alone, so the loop ends with
what Complete answers (10_state.md R32, 70_reset_and_hazards.md R111, R112). -/

section

namespace Sys2Proof.Proofs

open Sys2Proof.Machine Sys2Proof.Machine.Laws Sys2Proof.Claims

variable {i : Instr} {s t c : State} {w : Word} {n : Nat}

/-! ### Complete and the model's own fields -/

/-- `s` with other values in the model's own fields that a POLL while busy changes. -/
def withOwn (delay draws : Nat) (reply : Reply) (s : State) : State :=
  { s with delay := delay, draws := draws, reply := reply }

theorem agreeOnReads_withOwn (i : Instr) (delay draws : Nat) (reply : Reply) (s : State) :
    AgreeOnReads i s (withOwn delay draws reply s) := by
  cases i <;> simp [AgreeOnReads, withOwn]

theorem writeResults_withOwn (r : Results i) (delay draws : Nat) (reply : Reply) (s : State) :
    writeResults i r (withOwn delay draws reply s) = withOwn delay draws reply (writeResults i r s) := by
  cases i <;> rfl

/-- A command neither reads nor writes these fields. -/
theorem exec_withOwn (delay draws : Nat) (reply : Reply) (h : exec i s = .next t) :
    exec i (withOwn delay draws reply s) = .next (withOwn delay draws reply t) := by
  obtain ⟨e, -, he⟩ := exec_endsAlike i s
  rw [he s (agreeOnReads_refl i s)] at h
  rw [he _ (agreeOnReads_withOwn i delay draws reply s)]
  cases e with
  | stop f => cases h
  | report e info =>
    cases h
    rfl
  | done r =>
    cases h
    rw [Ending.apply, writeResults_withOwn]
    rfl

theorem complete_withOwn (delay draws : Nat) (reply : Reply) (h : complete w s = .next c) :
    complete w (withOwn delay draws reply s) = .next (withOwn delay draws reply c) := by
  cases hd : decode w with
  | ok i =>
    rw [complete_of_decode hd] at h ⊢
    exact exec_withOwn delay draws reply h
  | error e =>
    simp only [complete, hd, Host.Outcome.next.injEq] at h ⊢
    rw [← h]
    rfl

/-- Complete leaves the block idle, whether the command succeeded or not (R32, R86). -/
theorem complete_phase (h : complete w s = .next c) : c.phase = .idle := by
  rcases complete_next h with ⟨i, -, hexec⟩ | rfl
  · rcases exec_next hexec with ⟨e, info, rfl⟩ | ⟨r, rfl, -⟩ <;> rfl
  · rfl

theorem writeResults_script (r : Results i) (s : State) : (writeResults i r s).script = s.script := by
  cases i <;> rfl

theorem complete_script (h : complete w s = .next c) : c.script = s.script := by
  rcases complete_next h with ⟨i, -, hexec⟩ | rfl
  · rcases exec_next hexec with ⟨e, info, rfl⟩ | ⟨r, rfl, -⟩
    · rfl
    · exact writeResults_script r s
  · rfl

/-! ### One POLL -/

/-- A POLL before Complete: one less to wait, and the same command, with the same POLL still to come. -/
theorem step_poll_busy (hfaults : s.faults = []) (hbusy : s.phase = .busy w) (hscript : s.script = [.poll])
    (hdelay : s.delay = n + 1) : step s = .next (withOwn n (s.draws + 1) (.data (statusWord s)) s) := by
  have hbusy' : (countDelay (setScript [] s)).isBusy = true := isBusy_of_busy hbusy
  rw [step_busy_event hfaults hbusy hscript (by omega), hostStep, hostPoll_eq, if_pos hbusy']
  simp only [setScript, setReply, nextDraw, countDelay, withOwn, hdelay, hscript, Nat.add_sub_cancel]
  rfl

/-- A POLL of an idle block ends the loop. -/
theorem step_poll_idle (hfaults : s.faults = []) (hidle : s.phase = .idle) (hscript : s.script = [.poll]) :
    step s = .next (setReply (.data (statusWord s)) (nextDraw (setScript [] s))) := by
  have hidle' : (setScript [] s).isBusy = false := isBusy_of_idle hidle
  rw [step_idle_event hfaults hidle hscript, hostStep, hostPoll_eq, hidle']
  rfl

/-! ### The loop -/

theorem run_succ_of_step {M : Host.Core} {s s' : M.State} (k : Nat) (h : M.step s = .next s') :
    M.run (k + 1) s = M.run k s' := by
  rw [Host.Core.run, h]

/-- BUSY is bit 0 of STATUS (R19). -/
theorem statusWord_busyBit (s : State) : (statusWord s).getLsbD 0 = s.isBusy := by
  rw [statusWord, BitVec.getLsbD_append]
  simp

/-- Settles O45, by induction on the delay: with none left, Complete and then the last POLL; otherwise one POLL, after
which Complete answers the same but for the model's own fields. -/
theorem pollEndsWithTheCompletion : Obligations.PollEndsWithTheCompletion := by
  intro s c w hfaults hbusy hscript hcomplete
  induction hn : s.delay generalizing s c with
  | zero =>
    have hidle := complete_phase hcomplete
    have hcfaults : c.faults = [] := (complete_keeps_cfg_and_faults hcomplete).2.trans hfaults
    have hcscript : c.script = [.poll] := (complete_script hcomplete).trans hscript
    refine ⟨2, setReply (.data (statusWord c)) (nextDraw (setScript [] c)), statusWord c, ?_,
      ⟨rfl, hidle, hcfaults⟩, rfl, ?_⟩
    · calc core.run 2 s
        _ = core.run 1 c := run_succ_of_step (M := core) 1 ((step_complete hfaults hbusy (.inl hn)).trans hcomplete)
        _ = .next (setReply (.data (statusWord c)) (nextDraw (setScript [] c))) :=
          run_succ_of_step (M := core) 0 (step_poll_idle hcfaults hidle hcscript)
    · rw [statusWord_busyBit, isBusy_of_idle hidle]
  | succ n ih =>
    obtain ⟨draws, reply, hstep⟩ : ∃ draws reply, step s = .next (withOwn n draws reply s) :=
      ⟨_, _, step_poll_busy hfaults hbusy hscript hn⟩
    obtain ⟨k, t, v, hrun, hfinal, ht, hv⟩ := ih (withOwn n draws reply s) (withOwn n draws reply c) hfaults hbusy
      hscript (complete_withOwn n draws reply hcomplete) rfl
    exact ⟨k + 1, t, v, (run_succ_of_step (M := core) k hstep).trans hrun, hfinal, ht, hv⟩

end Sys2Proof.Proofs

end
